-- ==== Sys2Proof/Word.lean ====
section
/-! DEFINITION. The word types of the block: bytes of the buffer memory, 32-bit host registers and
64-bit transaction words (spec/00_scope.md R21, spec/10_state.md R27, spec/30_encoding.md R77). -/

namespace Sys2Proof

/-- One byte of the buffer memory (R50). -/
abbrev Byte := BitVec 8

/-- One host register, read or written whole (R27). -/
abbrev Word := BitVec 32

/-- One transaction word (R77). -/
abbrev TxnWord := BitVec 64

end Sys2Proof
end

