-- ==== Sys2Proof/Config.lean ====
section
/-! DEFINITION. What is fixed at build time (spec/00_scope.md R15 to R20) and the values the spec leaves
free.  The parameters are plain data with the range check carried beside them, so a configuration
outside R15 to R18 cannot be built (R20).  The free values are constants without a body. -/

namespace Sys2Proof

/-- R15 to R18: the legal ranges of AW, MAX_FRAME_LEN, P and S. -/
def configInRange (aw maxFrameLen p s : Nat) : Bool :=
  decide (1 ≤ aw) && decide (aw ≤ 32) && decide (maxFrameLen ≤ 2 ^ aw - 1) &&
  decide (1 ≤ p) && decide (p ≤ 65535) && decide (1 ≤ s) && decide (s ≤ 65535)

/-- The implementation parameters of R15 to R18.  P is the length of the preamble pattern (R17). -/
structure Config where
  /-- `AW`, the address width of the buffer memory in bits (R15). -/
  aw : Nat
  /-- `MAX_FRAME_LEN`, the largest frame length START accepts, in bytes (R16). -/
  maxFrameLen : Nat
  /-- `PATTERN[0..P-1]`, in emission order (R17). -/
  preamble : List Bool
  /-- `S`, the number of stop bits (R18). -/
  stopLen : Nat
  /-- R20: only a configuration within the ranges exists. -/
  legal : configInRange aw maxFrameLen preamble.length stopLen = true
  deriving DecidableEq, Repr

/-- `MEM_SIZE = 2^AW` (R15). -/
def Config.memSize (c : Config) : Nat := 2 ^ c.aw

/-- `P`, the preamble length in bits (R17). -/
def Config.preambleLen (c : Config) : Nat := c.preamble.length

/-- R20: build a block from raw parameters, or refuse to build it. -/
def Config.build (aw maxFrameLen p : Nat) (pattern : List Bool) (s : Nat) : Option Config :=
  if h : configInRange aw maxFrameLen pattern.length s = true then
    if pattern.length = p then some ⟨aw, maxFrameLen, pattern, s, h⟩ else none
  else none

/-- The preamble pattern of this hardware, first emitted bit first (R17). -/
def thisPreamble : List Bool := [false, false, false, false, true, false, true]

/-- The test configuration: AW = 16, MAX_FRAME_LEN = 256 (R15, R16), with the P, PATTERN and S of this
hardware (R17, R18).  DESIGN CHOICE (log entry 3): the state `reset` carries it; no statement rests on it. -/
def Config.test : Config where
  aw := 16
  maxFrameLen := 256
  preamble := thisPreamble
  stopLen := 4
  legal := by decide

/-- FREE VALUE (R47, R164; log entry 1).  The content of the buffer memory at reset: "an input of the run
(a draw), not ... zeros".  A byte that nothing has written since reset reads as this. -/
opaque Config.initialBuf : Nat → Byte

/-- FREE VALUE (log entry 6).  The bit a Preamble tick emits when `PRE_CNT` is `P` or more, an index
the pattern does not have; no reachable state has it (R49). -/
opaque Config.beyondPattern : Nat → Bool

/-- FREE VALUE (R182, OPEN; log entry 9).  `CODEC_LATENCY(n)`: the clock cycles `host_ready` is 0 for a codec command
over n source bytes.  Read by the port level only. -/
opaque Config.codecLatency : Nat → Nat

/-- FREE VALUE (R166, row 12 of spec/93_implementation_defined.md; log entry 10).  What a destination byte of the k-th
codec command that a reset cuts holds in the next run, by its address: "`any value`". -/
opaque Config.cutByte : Nat → Nat → Byte

end Sys2Proof
end

