-- ==== Sys2Proof/Syntax.lean ====
section
/-! DEFINITION. The operations of the block: one constructor per row of spec/opcode_table.json. -/

namespace Sys2Proof

/-- One transaction, in the order of spec/opcode_table.json. -/
inductive Instr where
  /-- `ENCODE` with the STD field of its CMD word (R108). -/
  | cmdEncode (std : BitVec 2)
  /-- `DECODE` with the STD field of its CMD word (R109). -/
  | cmdDecode (std : BitVec 2)
  /-- `START` (R112). -/
  | cmdStart
  /-- `WR_SRC` (R128). -/
  | wrSrc (data : Word)
  /-- `WR_DST` (R129). -/
  | wrDst (data : Word)
  /-- `WR_LEN` (R130). -/
  | wrLen (data : Word)
  /-- `RD_SRC` (R132). -/
  | rdSrc
  /-- `RD_DST` (R133). -/
  | rdDst
  /-- `RD_LEN` (R134). -/
  | rdLen
  /-- `RD_CODEC_STATUS` (R135). -/
  | rdCodecStatus
  /-- `RD_FRAMER_STATUS` (R136). -/
  | rdFramerStatus
  /-- `RD_BYTE_IDX` (R137). -/
  | rdByteIdx
  /-- `RD_BIT_IDX` (R138). -/
  | rdBitIdx
  /-- `RD_COUNTERS` (R139). -/
  | rdCounters
  /-- `RD_FRAME_BASE` (R140). -/
  | rdFrameBase
  /-- `RD_FRAME_LEN` (R141). -/
  | rdFrameLen
  /-- `MEM_WRITE` (R143). -/
  | memWrite (addr : Word) (data : Byte)
  /-- `MEM_READ` (R144). -/
  | memRead (addr : Word)
  /-- `TICK`, one tick of the TickSource (R113). -/
  | tick
  deriving DecidableEq, Repr

end Sys2Proof
end

