-- ==== Sys2Proof/WellFormed.lean ====
section
/-! DEFINITION. Which operations are well formed for a configuration.  The types of `Instr` already hold
every other bound of spec/30_encoding.md; what is left is "must be < MEM_SIZE" of R81 and R82. -/

namespace Sys2Proof

/-- R81, R82: the ADDR of MEM_WRITE and MEM_READ is below MEM_SIZE.  An operation that fails this check is a
reserved encoding (R91). -/
def Instr.wellFormed (c : Config) : Instr → Bool
  | .memWrite addr _ => decide (addr.toNat < c.memSize)
  | .memRead addr => decide (addr.toNat < c.memSize)
  | .cmdEncode _ => true
  | .cmdDecode _ => true
  | .cmdStart => true
  | .wrSrc _ => true
  | .wrDst _ => true
  | .wrLen _ => true
  | .rdSrc => true
  | .rdDst => true
  | .rdLen => true
  | .rdCodecStatus => true
  | .rdFramerStatus => true
  | .rdByteIdx => true
  | .rdBitIdx => true
  | .rdCounters => true
  | .rdFrameBase => true
  | .rdFrameLen => true
  | .tick => true

end Sys2Proof
end

