-- ==== Sys2Proof/Decode.lean ====
section
/-! DEFINITION. Decoding a transaction word (spec/30_encoding.md R77 to R92), the encoder written from the same
layouts, and the opcode table as data. -/

namespace Sys2Proof

/-- Why a word names no operation; each is a case of R91 and is refused there as `ReservedEncoding`. -/
inductive DecodeReject where
  /-- A KIND of 0x5 to 0xF (R78). -/
  | reservedKind
  /-- A KIND 0x4 word other than `0x4000000000000000` (R83). -/
  | notTheTickWord
  /-- A non-zero bit in a field marked "must be 0" (R79 to R82). -/
  | mustBeZero
  /-- A CMD word whose OP is 0b000 or 0b100 to 0b111 (R85). -/
  | reservedOp
  /-- A REG_WRITE to REG 0x4 to 0xF, read-only or unmapped (R131). -/
  | notWritable
  /-- A REG_READ of REG 0x0 or of REG 0xB to 0xF (R142). -/
  | notReadable
  /-- A TICK word offered on the host port (R83). -/
  | tickOnHostPort
  deriving DecidableEq, Repr

/-- R90: "every 64-bit word either names exactly one operation ... or is refused". -/
inductive Decoded where
  | instr (i : Instr)
  | reject (r : DecodeReject)
  deriving DecidableEq, Repr

/-- R78: KIND, bits [63:60]. -/
def kindField (w : TxnWord) : BitVec 4 := w.extractLsb' 60 4
/-- R79, R80: the must-be-0 bits [59:36] of a register transaction. -/
def regZeroField (w : TxnWord) : BitVec 24 := w.extractLsb' 36 24
/-- R79, R80: REG, bits [35:32]. -/
def regField (w : TxnWord) : BitVec 4 := w.extractLsb' 32 4
/-- R79: DATA, bits [31:0] (must be 0 in a REG_READ, R80). -/
def dataField (w : TxnWord) : Word := w.extractLsb' 0 32
/-- R81, R82: the must-be-0 bits [59:40] of a memory transaction. -/
def memZeroField (w : TxnWord) : BitVec 20 := w.extractLsb' 40 20
/-- R81, R82: ADDR, bits [39:8]. -/
def addrField (w : TxnWord) : Word := w.extractLsb' 8 32
/-- R81: DATA, bits [7:0] (must be 0 in a MEM_READ, R82). -/
def byteField (w : TxnWord) : Byte := w.extractLsb' 0 8
/-- R84: OP, bits [2:0] of the CMD word. -/
def opField (d : Word) : BitVec 3 := d.extractLsb' 0 3
/-- R84: STD, bits [5:4] of the CMD word. -/
def stdField (d : Word) : BitVec 2 := d.extractLsb' 4 2

/-- R84, R85: the command of a CMD word; bits [31:6] and [3] are ignored, and STD too by START. -/
def decodeCmd (d : Word) : Decoded :=
  if opField d = 1#3 then .instr (.cmdEncode (stdField d))
  else if opField d = 2#3 then .instr (.cmdDecode (stdField d))
  else if opField d = 3#3 then .instr .cmdStart
  else .reject .reservedOp

/-- R90, the REG_WRITE lines; register numbers are those of R27. -/
def decodeRegWrite (reg : BitVec 4) (d : Word) : Decoded :=
  if reg = 0x0#4 then decodeCmd d
  else if reg = 0x1#4 then .instr (.wrSrc d)
  else if reg = 0x2#4 then .instr (.wrDst d)
  else if reg = 0x3#4 then .instr (.wrLen d)
  else .reject .notWritable

/-- R90, the REG_READ lines; register numbers are those of R27. -/
def decodeRegRead (reg : BitVec 4) : Decoded :=
  if reg = 0x1#4 then .instr .rdSrc
  else if reg = 0x2#4 then .instr .rdDst
  else if reg = 0x3#4 then .instr .rdLen
  else if reg = 0x4#4 then .instr .rdCodecStatus
  else if reg = 0x5#4 then .instr .rdFramerStatus
  else if reg = 0x6#4 then .instr .rdByteIdx
  else if reg = 0x7#4 then .instr .rdBitIdx
  else if reg = 0x8#4 then .instr .rdCounters
  else if reg = 0x9#4 then .instr .rdFrameBase
  else if reg = 0xA#4 then .instr .rdFrameLen
  else .reject .notReadable

/-- R83: the one TICK word. -/
def tickWord : TxnWord := 0x4000000000000000#64

/-- R90: the whole decoder; the first line that matches decides. -/
def decode (w : TxnWord) : Decoded :=
  if kindField w = 0x0#4 then
    if regZeroField w ≠ 0 then .reject .mustBeZero else decodeRegWrite (regField w) (dataField w)
  else if kindField w = 0x1#4 then
    if regZeroField w ≠ 0 ∨ dataField w ≠ 0 then .reject .mustBeZero else decodeRegRead (regField w)
  else if kindField w = 0x2#4 then
    if memZeroField w ≠ 0 then .reject .mustBeZero
    else .instr (.memWrite (addrField w) (byteField w))
  else if kindField w = 0x3#4 then
    if memZeroField w ≠ 0 ∨ byteField w ≠ 0 then .reject .mustBeZero
    else .instr (.memRead (addrField w))
  else if kindField w = 0x4#4 then
    if w = tickWord then .instr .tick else .reject .notTheTickWord
  else .reject .reservedKind

/-- R91: a word offered on the host port.  There the TICK word is refused: "the host is not a tick source" (R83). -/
def decodeHost (w : TxnWord) : Decoded :=
  if decode w = .instr .tick then .reject .tickOnHostPort else decode w

/-- R79: the REG_WRITE layout. -/
def regWriteWord (reg : BitVec 4) (data : Word) : TxnWord := 0x0#4 ++ 0#24 ++ reg ++ data
/-- R80: the REG_READ layout. -/
def regReadWord (reg : BitVec 4) : TxnWord := 0x1#4 ++ 0#24 ++ reg ++ 0#32
/-- R81: the MEM_WRITE layout. -/
def memWriteWord (addr : Word) (data : Byte) : TxnWord := 0x2#4 ++ 0#20 ++ addr ++ data
/-- R82: the MEM_READ layout. -/
def memReadWord (addr : Word) : TxnWord := 0x3#4 ++ 0#20 ++ addr ++ 0#8
/-- R84: the CMD word, its ignored bits clear. -/
def cmdWord (std : BitVec 2) (op : BitVec 3) : Word := 0#26 ++ std ++ 0#1 ++ op

/-- The word of each operation, ignored bits clear (R94, R95). -/
def encode : Instr → TxnWord
  | .cmdEncode std => regWriteWord 0x0#4 (cmdWord std 1#3)
  | .cmdDecode std => regWriteWord 0x0#4 (cmdWord std 2#3)
  | .cmdStart => regWriteWord 0x0#4 (cmdWord 0#2 3#3)
  | .wrSrc data => regWriteWord 0x1#4 data
  | .wrDst data => regWriteWord 0x2#4 data
  | .wrLen data => regWriteWord 0x3#4 data
  | .rdSrc => regReadWord 0x1#4
  | .rdDst => regReadWord 0x2#4
  | .rdLen => regReadWord 0x3#4
  | .rdCodecStatus => regReadWord 0x4#4
  | .rdFramerStatus => regReadWord 0x5#4
  | .rdByteIdx => regReadWord 0x6#4
  | .rdBitIdx => regReadWord 0x7#4
  | .rdCounters => regReadWord 0x8#4
  | .rdFrameBase => regReadWord 0x9#4
  | .rdFrameLen => regReadWord 0xA#4
  | .memWrite addr data => memWriteWord addr data
  | .memRead addr => memReadWord addr
  | .tick => tickWord

/-- The bits of a word that name the operation `i` stands for: all but the ignored bits of a CMD word
([31:6] and [3], and STD for START; R84). -/
def meaningfulBits : Instr → TxnWord
  | .cmdEncode _ => 0xFFFFFFFF00000037#64
  | .cmdDecode _ => 0xFFFFFFFF00000037#64
  | .cmdStart => 0xFFFFFFFF00000007#64
  | .wrSrc _ => 0xFFFFFFFFFFFFFFFF#64
  | .wrDst _ => 0xFFFFFFFFFFFFFFFF#64
  | .wrLen _ => 0xFFFFFFFFFFFFFFFF#64
  | .rdSrc => 0xFFFFFFFFFFFFFFFF#64
  | .rdDst => 0xFFFFFFFFFFFFFFFF#64
  | .rdLen => 0xFFFFFFFFFFFFFFFF#64
  | .rdCodecStatus => 0xFFFFFFFFFFFFFFFF#64
  | .rdFramerStatus => 0xFFFFFFFFFFFFFFFF#64
  | .rdByteIdx => 0xFFFFFFFFFFFFFFFF#64
  | .rdBitIdx => 0xFFFFFFFFFFFFFFFF#64
  | .rdCounters => 0xFFFFFFFFFFFFFFFF#64
  | .rdFrameBase => 0xFFFFFFFFFFFFFFFF#64
  | .rdFrameLen => 0xFFFFFFFFFFFFFFFF#64
  | .memWrite _ _ => 0xFFFFFFFFFFFFFFFF#64
  | .memRead _ => 0xFFFFFFFFFFFFFFFF#64
  | .tick => 0xFFFFFFFFFFFFFFFF#64

/-- One row of spec/opcode_table.json: a word belongs to the row when `word &&& mask = pattern`. -/
structure OpcodeRow where
  mnemonic : String
  mask : TxnWord
  pattern : TxnWord
  deriving DecidableEq, Repr

/-- The row's mask and match value select the word. -/
def OpcodeRow.selects (r : OpcodeRow) (w : TxnWord) : Bool := w &&& r.mask == r.pattern

/-- spec/opcode_table.json, with the masks of the conflict note C10 (spec/90_conflicts.md). -/
def opcodeTable : List OpcodeRow :=
  [ ⟨"ENCODE",           0xFFFFFFFF00000007#64, 0x0000000000000001#64⟩,
    ⟨"DECODE",           0xFFFFFFFF00000007#64, 0x0000000000000002#64⟩,
    ⟨"START",            0xFFFFFFFF00000007#64, 0x0000000000000003#64⟩,
    ⟨"WR_SRC",           0xFFFFFFFF00000000#64, 0x0000000100000000#64⟩,
    ⟨"WR_DST",           0xFFFFFFFF00000000#64, 0x0000000200000000#64⟩,
    ⟨"WR_LEN",           0xFFFFFFFF00000000#64, 0x0000000300000000#64⟩,
    ⟨"RD_SRC",           0xFFFFFFFFFFFFFFFF#64, 0x1000000100000000#64⟩,
    ⟨"RD_DST",           0xFFFFFFFFFFFFFFFF#64, 0x1000000200000000#64⟩,
    ⟨"RD_LEN",           0xFFFFFFFFFFFFFFFF#64, 0x1000000300000000#64⟩,
    ⟨"RD_CODEC_STATUS",  0xFFFFFFFFFFFFFFFF#64, 0x1000000400000000#64⟩,
    ⟨"RD_FRAMER_STATUS", 0xFFFFFFFFFFFFFFFF#64, 0x1000000500000000#64⟩,
    ⟨"RD_BYTE_IDX",      0xFFFFFFFFFFFFFFFF#64, 0x1000000600000000#64⟩,
    ⟨"RD_BIT_IDX",       0xFFFFFFFFFFFFFFFF#64, 0x1000000700000000#64⟩,
    ⟨"RD_COUNTERS",      0xFFFFFFFFFFFFFFFF#64, 0x1000000800000000#64⟩,
    ⟨"RD_FRAME_BASE",    0xFFFFFFFFFFFFFFFF#64, 0x1000000900000000#64⟩,
    ⟨"RD_FRAME_LEN",     0xFFFFFFFFFFFFFFFF#64, 0x1000000A00000000#64⟩,
    ⟨"MEM_WRITE",        0xFFFFFF0000000000#64, 0x2000000000000000#64⟩,
    ⟨"MEM_READ",         0xFFFFFF00000000FF#64, 0x3000000000000000#64⟩,
    ⟨"TICK",             0xFFFFFFFFFFFFFFFF#64, 0x4000000000000000#64⟩ ]

/-- The mnemonic of each operation's row. -/
def Instr.mnemonic : Instr → String
  | .cmdEncode _ => "ENCODE"
  | .cmdDecode _ => "DECODE"
  | .cmdStart => "START"
  | .wrSrc _ => "WR_SRC"
  | .wrDst _ => "WR_DST"
  | .wrLen _ => "WR_LEN"
  | .rdSrc => "RD_SRC"
  | .rdDst => "RD_DST"
  | .rdLen => "RD_LEN"
  | .rdCodecStatus => "RD_CODEC_STATUS"
  | .rdFramerStatus => "RD_FRAMER_STATUS"
  | .rdByteIdx => "RD_BYTE_IDX"
  | .rdBitIdx => "RD_BIT_IDX"
  | .rdCounters => "RD_COUNTERS"
  | .rdFrameBase => "RD_FRAME_BASE"
  | .rdFrameLen => "RD_FRAME_LEN"
  | .memWrite _ _ => "MEM_WRITE"
  | .memRead _ => "MEM_READ"
  | .tick => "TICK"

/-- The instruction the decoder reads from an instruction whose bits are `w`; one transaction word is the whole
instruction (R77), so the bits above `nbits` are 0. -/
def decodeTableWord (nbits w : Nat) : Option Instr :=
  match decode (BitVec.ofNat 64 (w % 2 ^ nbits)) with
  | .instr i => some i
  | .reject _ => none

end Sys2Proof
end

