-- ==== Sys2Proof/Machine/State.lean ====
section
/-! DEFINITION. The state of the block (spec/10_state.md R24), what the model keeps beside it, and the state after
reset (spec/70_reset_and_hazards.md R163, R164). -/

namespace Sys2Proof.Machine

/-- R34: "one of (Idle, Preamble, Payload, Stop)". -/
inductive Phase where
  | idle
  | preamble
  | payload
  | stop
  deriving DecidableEq, Repr

/-- R87: the named status codes.  `working` is never produced (R150); codes 5 to 7 have no name (log entry 12). -/
inductive Status where
  | ok
  | invalidEncode
  | errorStandard
  | errorSize
  | working
  deriving DecidableEq, Repr

/-- R3: the polarity standards. -/
inductive Standard where
  | ieee
  | thomas
  deriving DecidableEq, Repr

/-- R22: what a step emits. -/
inductive Event where
  /-- One write of one logic level to the OutputSink. -/
  | line (v : Bool)
  /-- A transmission is complete (R117). -/
  | done
  /-- The value a register read or a memory read returns. -/
  | read (v : Word)
  deriving DecidableEq, Repr

/-- R151: the reasons a refused step names.  None is a status the hardware reports. -/
inductive Reason where
  | reservedEncoding
  | regionOutOfRange
  | regionOverlap
  | borrowViolation
  | frameOutOfRange
  deriving DecidableEq, Repr

/-- R10, R11: what one step takes from the environment, a host transaction or one tick of the TickSource. -/
inductive Arrival where
  /-- A word offered on the host port (R75). -/
  | host (w : TxnWord)
  /-- One tick on `tick_i` (R73). -/
  | tick
  deriving DecidableEq, Repr

/-- The buffer memory `BUF` (R47, R50): the bytes written since reset, addresses strictly rising.  An address that is
not listed has no byte of its own and reads as the run's initial content (log entry 1). -/
abbrev Memory := List Host.Cell

/-- The state.  The first fifteen fields after `cfg` are the record of R24, in its order; `cfg` holds the parameters
of R15 to R18, which no step changes; the last three are the model's own: what the environment still sends, and what
has been observed (log entries 4, 5, 2).  A register of AW bits is held in a word (log entry 7). -/
structure State where
  /-- The parameters (R48: "not state"); fixed for the run (log entry 3). -/
  cfg : Config
  /-- `SRC`, AW bits (R29). -/
  src : Word
  /-- `DST`, AW bits (R30). -/
  dst : Word
  /-- `LEN`, AW bits (R31). -/
  len : Word
  /-- `STATUS` (R32). -/
  status : Status
  /-- `PHASE` (R34). -/
  phase : Phase
  /-- `DONE` (R35). -/
  done : Bool
  /-- `LINE`, the level of `line_o` (R36). -/
  line : Bool
  /-- `BYTE_IDX`, AW bits (R37). -/
  byteIdx : Word
  /-- `BIT_IDX` (R38). -/
  bitIdx : BitVec 3
  /-- `PRE_CNT` (R40). -/
  preCnt : BitVec 16
  /-- `STOP_CNT` (R41). -/
  stopCnt : BitVec 16
  /-- `FRAME_BASE`, AW bits (R42). -/
  frameBase : Word
  /-- `FRAME_LEN`, AW bits (R43). -/
  frameLen : Word
  /-- `BUF` (R47). -/
  buf : Memory
  /-- `REFUSED`, the mark that some step was refused (R46). -/
  refused : Bool
  /-- The transactions still to come, in the order they take effect (R12, R64): the host's program and the tick
  schedule (log entry 4). -/
  stream : List Arrival
  /-- The events emitted so far, oldest first: with the state, "the observation of a run" (R14; log entry 5). -/
  events : List Event
  /-- The reasons of the refused steps so far, oldest first (R151; log entry 2). -/
  reasons : List Reason
  deriving DecidableEq, Repr

/-- "The block has no fault outcome" (R13), so no step faults and no constructor is needed. -/
inductive Fault where
  deriving DecidableEq, Repr

/-- Why the model gives an instruction no meaning.  The spec's own refusals are not this: they are next states
with `REFUSED` set (R22; log entry 2). -/
inductive Refusal where
  /-- Raised by an arm of `exec` whose instruction has no meaning yet (safe).  No arm raises it. -/
  | notModelled (mnemonic : String)
  deriving DecidableEq, Repr

/-- R163, R164: the initial state of a run, for any configuration and any initial content of `BUF` the caller
lists (the bytes not listed are free). -/
def State.initial (cfg : Config) (content : Memory) : State where
  cfg := cfg
  src := 0
  dst := 0
  len := 0
  status := .ok
  phase := .idle
  done := false
  line := false
  byteIdx := 0
  bitIdx := 0
  preCnt := 0
  stopCnt := 0
  frameBase := 0
  frameLen := 0
  buf := content
  refused := false
  stream := []
  events := []
  reasons := []

/-- The block right after reset in the test configuration, every byte of `BUF` free (R163, R164). -/
def State.reset : State := State.initial Config.test []

end Sys2Proof.Machine
end

