-- ==== Sys2Proof/Machine/Ops.lean ====
section
/-! DEFINITION. The named operations over memory and state: reading and writing BUF, regions, the borrow check, events
and refusal (spec/00_scope.md R22, spec/20_memory.md R50 to R63).  The block takes no exception (R145), so the shared
operation that takes the place of exception entry is `State.refuse`. -/

namespace Sys2Proof.Machine

/-- The canonical form of a memory: its addresses strictly rise (so no address is listed twice).  What an unlisted
address holds is "no byte of its own", which no entry can equal. -/
def Memory.wf : Memory → Bool
  | [] => true
  | c :: rest => rest.all (fun d => decide (c.1 < d.1)) && Memory.wf rest

/-- Every listed address exists in a memory of `size` bytes (R50). -/
def Memory.within (size : Nat) (m : Memory) : Bool := m.all (fun c => decide (c.1 < size))

/-- The byte written to an address, if any was. -/
def Memory.lookup : Memory → Nat → Option Byte
  | [], _ => none
  | c :: rest, a => if c.1 = a then some c.2 else Memory.lookup rest a

/-- R22, R64: `BUF[a]`, the last byte written there, "or the initial BUF content if there was none". -/
def Memory.readByte (m : Memory) (a : Nat) : Byte := (m.lookup a).getD (Config.initialBuf a)

/-- R22: `BUF[a] <- v`. -/
def Memory.writeByte : Memory → Nat → Byte → Memory
  | [], a, v => [(a, v)]
  | c :: rest, a, v =>
    if a < c.1 then (a, v) :: c :: rest
    else if a = c.1 then (a, v) :: rest
    else c :: Memory.writeByte rest a v

/-- R22: `MemRead(a, n)`. -/
def Memory.readBytes (m : Memory) (a n : Nat) : List Byte :=
  (List.range n).map (fun i => m.readByte (a + i))

/-- R22: `MemWrite(a, n, xs)` with `n` the length of `xs`. -/
def Memory.writeBytes : Memory → Nat → List Byte → Memory
  | m, _, [] => m
  | m, a, x :: xs => Memory.writeBytes (m.writeByte a x) (a + 1) xs

/-- R62: `region(a, n)` is in range; addresses never wrap. -/
def regionInRange (size a n : Nat) : Bool := decide (a + n ≤ size)

/-- R62: `overlap(a, n, b, m)`. -/
def overlap (a n b m : Nat) : Bool :=
  decide (0 < n) && decide (0 < m) && decide (a < b + m) && decide (b < a + n)

/-- One byte of `BUF` in a state. -/
def State.readByte (s : State) (a : Nat) : Byte := s.buf.readByte a

/-- R22: `emit e`. -/
def State.emit (s : State) (e : Event) : State := { s with events := s.events ++ [e] }

/-- R22: `LineWrite(v)`. -/
def State.lineWrite (s : State) (v : Bool) : State :=
  { s with line := v, events := s.events ++ [Event.line v] }

/-- R22, R46: `refuse(reason)`: the mark is set, the reason is named (R151), and nothing else changes. -/
def State.refuse (s : State) (r : Reason) : State :=
  { s with refused := true, reasons := s.reasons ++ [r] }

/-- `STATUS <- st`: the whole record of a codec error (R154). -/
def State.setStatus (s : State) (st : Status) : State := { s with status := st }

/-- R22: `MemWrite` on `BUF`. -/
def State.storeBytes (s : State) (a : Nat) (xs : List Byte) : State :=
  { s with buf := s.buf.writeBytes a xs }

/-- R63: `BorrowCheck(a, n)` refuses. -/
def State.borrowViolated (s : State) (a n : Nat) : Bool :=
  decide (s.phase ≠ .idle) && overlap a n s.frameBase.toNat s.frameLen.toNat

/-- What a step emitted: the events of `t` that `s` did not have. -/
def State.emittedSince (t s : State) : List Event := t.events.drop s.events.length

/-- R163 with R166: the block after a reset edge.  `BUF` is not written; a new run starts. -/
def State.afterReset (s : State) : State := State.initial s.cfg s.buf

/-- R166, row 12 of spec/93_implementation_defined.md: the memory a reset leaves when it cuts a codec command whose
destination is the `n` bytes from `d`: each of those bytes is `free` of its address, every other byte is kept. -/
def Memory.cut (free : Nat → Byte) (d n : Nat) (m : Memory) : Memory :=
  m.writeBytes d ((List.range n).map fun i => free (d + i))

end Sys2Proof.Machine
end

