-- ==== Sys2Proof/Machine/Operands.lean ====
section
/-! DEFINITION. Operand assembly (spec/30_encoding.md R93): what a register keeps of a written value, the operands of
the commands, and the value a register reads as (spec/10_state.md R27 to R43). -/

namespace Sys2Proof.Machine

/-- R93, R128 to R130: `DATA[AW-1:0]`, the rest dropped. -/
def keepAw (aw : Nat) (data : Word) : Word := BitVec.ofNat 32 (data.toNat % 2 ^ aw)

/-- R108, R109: the source address of a codec command. -/
def State.srcAddr (s : State) : Nat := s.src.toNat

/-- R108, R109: the destination address of a codec command. -/
def State.dstAddr (s : State) : Nat := s.dst.toNat

/-- R108, R109: the source length of a codec command. -/
def State.lenBytes (s : State) : Nat := s.len.toNat

/-- R86: the standard an STD code names; 0b10 and 0b11 are unrecognised. -/
def Standard.ofCode (std : BitVec 2) : Option Standard :=
  if std = 0b00#2 then some .ieee else if std = 0b01#2 then some .thomas else none

/-- R116: the address of the frame byte the next Payload tick reads; it is in BUF in every reachable state (R49; log
entry 13). -/
def State.framePos (s : State) : Nat := s.frameBase.toNat + s.byteIdx.toNat

/-- R37: `BYTE_IDX + 1` as a field of AW bits holds it. -/
def State.nextByteIdx (s : State) : Word := keepAw s.cfg.aw (s.byteIdx + 1)

/-- R115: `PATTERN[PRE_CNT]`; free where the pattern has no such bit. -/
def State.preambleBit (s : State) : Bool :=
  (s.cfg.preamble[s.preCnt.toNat]?).getD (Config.beyondPattern s.preCnt.toNat)

/-- R116: `byte[7 - BIT_IDX]` of the current frame byte. -/
def State.payloadBit (s : State) : Bool :=
  (s.readByte s.framePos).getLsbD (7 - s.bitIdx.toNat)

end Sys2Proof.Machine
end

