-- ==== Sys2Proof/Machine/Flags.lean ====
section
/-! DEFINITION. The numeric codes of the status and the phase and the read-only status words (spec/30_encoding.md R87,
R88; spec/10_state.md R32, R33, R39). -/

namespace Sys2Proof.Machine

/-- R87: the status codes. -/
def Status.code : Status → BitVec 3
  | .ok => 0#3
  | .invalidEncode => 1#3
  | .errorStandard => 2#3
  | .errorSize => 3#3
  | .working => 4#3

/-- R88: the phase codes. -/
def Phase.code : Phase → BitVec 2
  | .idle => 0#2
  | .preamble => 1#2
  | .payload => 2#2
  | .stop => 3#2

/-- R32: `CODEC_STATUS`, STATUS in bits [2:0]. -/
def State.codecStatusWord (s : State) : Word := 0#29 ++ s.status.code

/-- R33, R136: `FRAMER_STATUS`, PHASE in bits [1:0], DONE in bit 2, LINE in bit 3. -/
def State.framerStatusWord (s : State) : Word :=
  0#28 ++ BitVec.ofBool s.line ++ BitVec.ofBool s.done ++ s.phase.code

/-- R38: `BIT_IDX` in bits [2:0]. -/
def State.bitIdxWord (s : State) : Word := 0#29 ++ s.bitIdx

/-- R39: `COUNTERS`, PRE_CNT in bits [15:0], STOP_CNT in bits [31:16]. -/
def State.countersWord (s : State) : Word := s.stopCnt ++ s.preCnt

end Sys2Proof.Machine
end

