-- ==== Sys2Proof/Machine/Codec.lean ====
section
/-! DEFINITION. The Manchester codec (spec/40_codec.md): the symbol tables, the functions on bytes, chunks and
sequences, and the meanings of ENCODE and DECODE. -/

namespace Sys2Proof.Machine

/-- R96: `SYM(std, bit)`. -/
def sym : Standard → Bool → BitVec 2
  | .ieee, true => 0b01#2
  | .ieee, false => 0b10#2
  | .thomas, true => 0b10#2
  | .thomas, false => 0b01#2

/-- R97: `INV(std, s)`; `none` for the invalid symbols 00 and 11. -/
def inv (std : Standard) (s : BitVec 2) : Option Bool :=
  if s = 0b01#2 then some (match std with | .ieee => true | .thomas => false)
  else if s = 0b10#2 then some (match std with | .ieee => false | .thomas => true)
  else none

/-- R99, R101: the order in which the bits of a byte are handled, most significant first. -/
def msbFirst : List Nat := [7, 6, 5, 4, 3, 2, 1, 0]

/-- R99: `ENC8(b, std)`, one symbol appended at a time. -/
def enc8 (std : Standard) (b : Byte) : BitVec 16 :=
  msbFirst.foldl (fun acc k => (acc <<< 2) ||| (sym std (b.getLsbD k)).setWidth 16) 0#16

/-- R101: `c[2k+1:2k]`, the symbol of data bit `k`. -/
def symbolAt (c : BitVec 16) (k : Nat) : BitVec 2 := c.extractLsb' (2 * k) 2

/-- R101: `b[k] <- v`. -/
def setBit (b : Byte) (k : Nat) (v : Bool) : Byte :=
  if v then b ||| (1#8 <<< k) else b &&& ~~~(1#8 <<< k)

/-- R101: the loop of DEC16 over the data bits `ks`, ended by the first invalid symbol. -/
def decodeSymbols (std : Standard) (c : BitVec 16) : List Nat → Byte → Option Byte
  | [], b => some b
  | k :: ks, b =>
    match inv std (symbolAt c k) with
    | none => none
    | some v => decodeSymbols std c ks (setBit b k v)

/-- R101: `DEC16(c, std)`; `none` is `ok = false`. -/
def dec16 (std : Standard) (c : BitVec 16) : Option Byte := decodeSymbols std c msbFirst 0#8

/-- R53: a chunk as its two bytes, "(high byte, low byte) ... in that order". -/
def chunkBytes (c : BitVec 16) : List Byte := [c.extractLsb' 8 8, c.extractLsb' 0 8]

/-- R103, the loop: each payload byte becomes one chunk. -/
def encodeBytes (std : Standard) (p : List Byte) : List Byte :=
  p.flatMap fun b => chunkBytes (enc8 std b)

/-- R104, the loop: each pair of bytes is one chunk; the first invalid one ends it with no result. -/
def decodeChunks (std : Standard) : List Byte → Option (List Byte)
  | hi :: lo :: rest =>
    match dec16 std (hi ++ lo) with
    | none => none
    | some b => (decodeChunks std rest).map (b :: ·)
  | _ => some []

/-- R103: `ENCODE_SEQ(p, std)`. -/
def encodeSeq (p : List Byte) (std : BitVec 2) : Status × List Byte :=
  match Standard.ofCode std with
  | none => (.errorStandard, [])
  | some st => (.ok, encodeBytes st p)

/-- R104, R105: `DECODE_SEQ(e, std)`: size, then standard, then content. -/
def decodeSeq (e : List Byte) (std : BitVec 2) : Status × List Byte :=
  if e.length % 2 = 1 then (.errorSize, [])
  else match Standard.ofCode std with
    | none => (.errorStandard, [])
    | some st =>
      match decodeChunks st e with
      | none => (.invalidEncode, [])
      | some out => (.ok, out)

/-- R108, R109: the shape ENCODE and DECODE share.  `outLen` is the length of the destination region and `result` the
sequence function; the region checks come first (R110), and only an OK result is written (R106). -/
def State.codecCommand (s : State) (outLen : Nat) (result : List Byte → Status × List Byte) : State :=
  if !(regionInRange s.cfg.memSize s.srcAddr s.lenBytes &&
       regionInRange s.cfg.memSize s.dstAddr outLen) then
    s.refuse .regionOutOfRange
  else if overlap s.srcAddr s.lenBytes s.dstAddr outLen then
    s.refuse .regionOverlap
  else
    match result (s.buf.readBytes s.srcAddr s.lenBytes) with
    | (.ok, out) =>
      if s.borrowViolated s.dstAddr outLen then s.refuse .borrowViolation
      else (s.storeBytes s.dstAddr out).setStatus .ok
    | (st, _) => s.setStatus st

/-- R108: ENCODE. -/
def execEncode (std : BitVec 2) (s : State) : Host.Outcome State Fault Refusal :=
  .next (s.codecCommand (2 * s.lenBytes) (fun p => encodeSeq p std))

/-- R109: DECODE. -/
def execDecode (std : BitVec 2) (s : State) : Host.Outcome State Fault Refusal :=
  .next (s.codecCommand (s.lenBytes / 2) (fun e => decodeSeq e std))

end Sys2Proof.Machine
end

