-- ==== Sys2Proof/Machine/Framer.lean ====
section
/-! DEFINITION. The transmission framer (spec/41_framer.md): the meanings of START and TICK and the four phase
actions. -/

namespace Sys2Proof.Machine

/-- R112: an accepted START takes a copy of `SRC` and `LEN` and resets the FramerContext. -/
def State.beginFrame (s : State) : State :=
  { s with
    frameBase := s.src
    frameLen := s.len
    byteIdx := 0
    bitIdx := 0
    preCnt := 0
    stopCnt := 0
    done := false
    phase := .preamble }

/-- R112: a frame reference the block cannot hold. -/
def State.frameTooLarge (s : State) : Bool :=
  decide (s.cfg.maxFrameLen < s.len.toNat) ||
    !(regionInRange s.cfg.memSize s.src.toNat s.len.toNat)

/-- R112: START; ignored unless the framer is Idle. -/
def execStart (s : State) : Host.Outcome State Fault Refusal :=
  if s.phase ≠ .idle then .next s
  else if s.frameTooLarge then .next (s.refuse .frameOutOfRange)
  else .next s.beginFrame

/-- R114: a tick in Idle does nothing. -/
def State.tickIdle (s : State) : State := s

/-- R115, R118: where the last Preamble tick goes. -/
def State.endPreamble (s : State) : State :=
  if s.frameLen = 0 then { s with byteIdx := 0, bitIdx := 0, stopCnt := 0, phase := .stop }
  else { s with byteIdx := 0, bitIdx := 0, phase := .payload }

/-- R115: "if PRE_CNT == P", the value just written. -/
def State.afterPreambleBit (s : State) : State :=
  if s.preCnt.toNat = s.cfg.preambleLen then s.endPreamble else s

/-- R115: a tick in Preamble. -/
def State.tickPreamble (s : State) : State :=
  ({ s with preCnt := s.preCnt + 1 }.lineWrite s.preambleBit).afterPreambleBit

/-- R116: "if BYTE_IDX == FRAME_LEN", the value just written. -/
def State.afterByte (s : State) : State :=
  if s.byteIdx = s.frameLen then { s with stopCnt := 0, phase := .stop } else s

/-- R116: the cursors after a bit of the frame. -/
def State.afterPayloadBit (s : State) : State :=
  if s.bitIdx = 7 then { s with bitIdx := 0, byteIdx := s.nextByteIdx }.afterByte
  else { s with bitIdx := s.bitIdx + 1 }

/-- R116: a tick in Payload. -/
def State.tickPayload (s : State) : State := (s.lineWrite s.payloadBit).afterPayloadBit

/-- R117: "if STOP_CNT == S", the value just written. -/
def State.afterStopBit (s : State) : State :=
  if s.stopCnt.toNat = s.cfg.stopLen then
    { s with frameBase := 0, frameLen := 0, done := true, phase := .idle }.emit .done
  else s

/-- R117: a tick in Stop. -/
def State.tickStop (s : State) : State :=
  ({ s with stopCnt := s.stopCnt + 1 }.lineWrite false).afterStopBit

/-- R113: the action of the phase at the start of the step. -/
def State.tickAction (s : State) : State :=
  match s.phase with
  | .idle => s.tickIdle
  | .preamble => s.tickPreamble
  | .payload => s.tickPayload
  | .stop => s.tickStop

/-- R113: TICK. -/
def execTick (s : State) : Host.Outcome State Fault Refusal := .next s.tickAction

end Sys2Proof.Machine
end

