-- ==== Sys2Proof/Machine/HostAccess.lean ====
section
/-! DEFINITION. Host register and memory access (spec/42_host_access.md). -/

namespace Sys2Proof.Machine

/-- R128: WR_SRC. -/
def execWrSrc (data : Word) (s : State) : Host.Outcome State Fault Refusal :=
  .next { s with src := keepAw s.cfg.aw data }

/-- R129: WR_DST. -/
def execWrDst (data : Word) (s : State) : Host.Outcome State Fault Refusal :=
  .next { s with dst := keepAw s.cfg.aw data }

/-- R130: WR_LEN. -/
def execWrLen (data : Word) (s : State) : Host.Outcome State Fault Refusal :=
  .next { s with len := keepAw s.cfg.aw data }

/-- R132: RD_SRC. -/
def execRdSrc (s : State) : Host.Outcome State Fault Refusal := .next (s.emit (.read s.src))

/-- R133: RD_DST. -/
def execRdDst (s : State) : Host.Outcome State Fault Refusal := .next (s.emit (.read s.dst))

/-- R134: RD_LEN. -/
def execRdLen (s : State) : Host.Outcome State Fault Refusal := .next (s.emit (.read s.len))

/-- R135: RD_CODEC_STATUS. -/
def execRdCodecStatus (s : State) : Host.Outcome State Fault Refusal :=
  .next (s.emit (.read s.codecStatusWord))

/-- R136: RD_FRAMER_STATUS. -/
def execRdFramerStatus (s : State) : Host.Outcome State Fault Refusal :=
  .next (s.emit (.read s.framerStatusWord))

/-- R137: RD_BYTE_IDX. -/
def execRdByteIdx (s : State) : Host.Outcome State Fault Refusal :=
  .next (s.emit (.read s.byteIdx))

/-- R138: RD_BIT_IDX. -/
def execRdBitIdx (s : State) : Host.Outcome State Fault Refusal :=
  .next (s.emit (.read s.bitIdxWord))

/-- R139: RD_COUNTERS. -/
def execRdCounters (s : State) : Host.Outcome State Fault Refusal :=
  .next (s.emit (.read s.countersWord))

/-- R140: RD_FRAME_BASE. -/
def execRdFrameBase (s : State) : Host.Outcome State Fault Refusal :=
  .next (s.emit (.read s.frameBase))

/-- R141: RD_FRAME_LEN. -/
def execRdFrameLen (s : State) : Host.Outcome State Fault Refusal :=
  .next (s.emit (.read s.frameLen))

/-- R143: MEM_WRITE; the address is checked here, not by the decoder (log entry 15). -/
def execMemWrite (addr : Word) (data : Byte) (s : State) : Host.Outcome State Fault Refusal :=
  if s.cfg.memSize ≤ addr.toNat then .next (s.refuse .reservedEncoding)
  else if s.borrowViolated addr.toNat 1 then .next (s.refuse .borrowViolation)
  else .next (s.storeBytes addr.toNat [data])

/-- R144: MEM_READ. -/
def execMemRead (addr : Word) (s : State) : Host.Outcome State Fault Refusal :=
  if s.cfg.memSize ≤ addr.toNat then .next (s.refuse .reservedEncoding)
  else .next (s.emit (.read ((s.readByte addr.toNat).setWidth 32)))

end Sys2Proof.Machine
end

