-- ==== Sys2Proof/Machine/Dispatch.lean ====
section
/-! DEFINITION. One arm per operation of the block (spec/opcode_table.json). -/

namespace Sys2Proof.Machine

def exec (i : Instr) (s : State) : Host.Outcome State Fault Refusal :=
  match i with
  | .cmdEncode std => Sys2Proof.Machine.execEncode std s
  | .cmdDecode std => Sys2Proof.Machine.execDecode std s
  | .cmdStart => Sys2Proof.Machine.execStart s
  | .wrSrc data => Sys2Proof.Machine.execWrSrc data s
  | .wrDst data => Sys2Proof.Machine.execWrDst data s
  | .wrLen data => Sys2Proof.Machine.execWrLen data s
  | .rdSrc => Sys2Proof.Machine.execRdSrc s
  | .rdDst => Sys2Proof.Machine.execRdDst s
  | .rdLen => Sys2Proof.Machine.execRdLen s
  | .rdCodecStatus => Sys2Proof.Machine.execRdCodecStatus s
  | .rdFramerStatus => Sys2Proof.Machine.execRdFramerStatus s
  | .rdByteIdx => Sys2Proof.Machine.execRdByteIdx s
  | .rdBitIdx => Sys2Proof.Machine.execRdBitIdx s
  | .rdCounters => Sys2Proof.Machine.execRdCounters s
  | .rdFrameBase => Sys2Proof.Machine.execRdFrameBase s
  | .rdFrameLen => Sys2Proof.Machine.execRdFrameLen s
  | .memWrite addr data => Sys2Proof.Machine.execMemWrite addr data s
  | .memRead addr => Sys2Proof.Machine.execMemRead addr s
  | .tick => Sys2Proof.Machine.execTick s

end Sys2Proof.Machine
end

