-- ==== Sys2Proof/Machine/Transaction.lean ====
section
/-! DEFINITION. From what the environment sends to an operation (spec/00_scope.md R10 to R13, spec/30_encoding.md R83,
R91): the two agents, the words of a listing, and one transaction. -/

namespace Sys2Proof.Machine

/-- R83: the word of a listing or an event stream; the TICK word "stands for one tick of the TickSource". -/
def Arrival.ofListing (w : TxnWord) : Arrival := if w = tickWord then .tick else .host w

/-- R90, R91: the operation that arrives, or why it is none. -/
def fetch : Arrival → Decoded
  | .host w => decodeHost w
  | .tick => .instr .tick

/-- R11: one transaction.  A word that names no operation is refused with `ReservedEncoding` (R91). -/
def runArrival (a : Arrival) (s : State) : Host.Outcome State Fault Refusal :=
  match fetch a with
  | .instr i => exec i s
  | .reject _ => .next (s.refuse .reservedEncoding)

/-- Go on with the next state, or stop where the first part stopped. -/
def andThen {σ τ : Type} (o : Host.Outcome σ Fault Refusal)
    (f : σ → Host.Outcome τ Fault Refusal) : Host.Outcome τ Fault Refusal :=
  match o with
  | .next s => f s
  | .fault r => .fault r
  | .refused r => .refused r

/-- Operations one after another, each a whole step (R12). -/
def runInstrs : List Instr → State → Host.Outcome State Fault Refusal
  | [], s => .next s
  | i :: is, s => andThen (exec i s) (runInstrs is)

end Sys2Proof.Machine
end

