-- ==== Sys2Proof/Machine/Step.lean ====
section
/-! DEFINITION. One step: the next transaction of the stream takes effect (spec/00_scope.md R11, R12). -/

namespace Sys2Proof.Machine

/-- R11.  When nothing arrives the block waits and nothing changes (R165). -/
def step (s : State) : Host.Outcome State Fault Refusal :=
  match s.stream with
  | [] => .next s
  | a :: rest => runArrival a { s with stream := rest }

/-- `s` with one more transaction, first in its stream: the listing word whose bits are `w` (R77, R83).  One word is
a whole transaction, so the bits above `nbits` are 0. -/
def State.withFetchWord (s : State) (nbits w : Nat) : State :=
  { s with stream := Arrival.ofListing (BitVec.ofNat 64 (w % 2 ^ nbits)) :: s.stream }

end Sys2Proof.Machine
end

