-- ==== Sys2Proof/Machine/Assembly.lean ====
section
/-! DEFINITION. Host programs (spec/30_encoding.md R94, R95): the assembly lines and pseudo-instructions as data, and
the transaction words they stand for. -/

namespace Sys2Proof.Machine

/-- R27: the register names. -/
inductive RegName where
  | cmd
  | src
  | dst
  | len
  | codecStatus
  | framerStatus
  | byteIdx
  | bitIdx
  | counters
  | frameBase
  | frameLen
  deriving DecidableEq, Repr

/-- R27: the register numbers. -/
def RegName.number : RegName → BitVec 4
  | .cmd => 0x0#4
  | .src => 0x1#4
  | .dst => 0x2#4
  | .len => 0x3#4
  | .codecStatus => 0x4#4
  | .framerStatus => 0x5#4
  | .byteIdx => 0x6#4
  | .bitIdx => 0x7#4
  | .counters => 0x8#4
  | .frameBase => 0x9#4
  | .frameLen => 0xA#4

/-- R94 and R95: one line of a listing.  A register is given by its number ("a register name may also be written as
its number"). -/
inductive AsmLine where
  | wr (reg : BitVec 4) (data : Word)
  | rd (reg : BitVec 4)
  | mw (addr : Word) (byte : Byte)
  | mr (addr : Word)
  | tick
  | encodeStd (n : BitVec 2)
  | decodeStd (n : BitVec 2)
  | start
  | setup (s d n : Word)
  | mwb (a : Word) (bytes : List Byte)
  | ticks (n : Nat)
  deriving DecidableEq, Repr

/-- R95: `mwb`, one `mw` after another at rising addresses. -/
def mwbWords : Word → List Byte → List TxnWord
  | _, [] => []
  | a, b :: bs => memWriteWord a b :: mwbWords (a + 1) bs

/-- R94, R95: the words of a line. -/
def AsmLine.words : AsmLine → List TxnWord
  | .wr reg data => [regWriteWord reg data]
  | .rd reg => [regReadWord reg]
  | .mw addr byte => [memWriteWord addr byte]
  | .mr addr => [memReadWord addr]
  | .tick => [tickWord]
  | .encodeStd n => [regWriteWord RegName.cmd.number (cmdWord n 1#3)]
  | .decodeStd n => [regWriteWord RegName.cmd.number (cmdWord n 2#3)]
  | .start => [regWriteWord RegName.cmd.number (cmdWord 0#2 3#3)]
  | .setup s d n =>
    [regWriteWord RegName.src.number s, regWriteWord RegName.dst.number d,
     regWriteWord RegName.len.number n]
  | .mwb a bytes => mwbWords a bytes
  | .ticks n => List.replicate n tickWord

/-- A listing put before the block, in place of whatever was still to come (R12: "one interleaving"). -/
def State.load (s : State) (listing : List AsmLine) : State :=
  { s with stream := (listing.flatMap AsmLine.words).map Arrival.ofListing }

end Sys2Proof.Machine
end

