-- ==== Sys2Proof/Machine/Ports.lean ====
section
/-! DEFINITION. The port level (spec/30_encoding.md R71 to R76, spec/70_reset_and_hazards.md R163, R166, R182): one rising
edge of `clk`, in terms of the transactions above.  It adds the output registers of the ports to the state of R24, which
"is the record below; nothing else is state"; no rule of the transaction level reads them (decision D2; log entry 11). -/

namespace Sys2Proof.Machine

/-- R71: what the inputs hold at one rising edge of `clk`. -/
structure Edge where
  rst : Bool
  tickI : Bool
  hostValid : Bool
  hostTxn : TxnWord
  deriving DecidableEq, Repr

/-- R62: `region(base, size)`, the `size` bytes from `base`. -/
structure Region where
  base : Nat
  size : Nat
  deriving DecidableEq, Repr

/-- The block with its port registers. -/
structure Block where
  /-- The state of R24. -/
  core : State
  /-- `done_o` (R74). -/
  doneO : Bool
  /-- `host_rvalid` with `host_rdata`: the data when valid; `host_rdata` has no stated value otherwise (R75). -/
  hostRead : Option Word
  /-- The cycles for which `host_ready` is still 0 (R75, R182). -/
  busy : Nat
  /-- The destination bytes of the codec command that holds `host_ready` at 0, for a reset that cuts it (R166). -/
  writing : Region
  /-- How many codec commands resets have cut: the index of the free value of R166. -/
  cuts : Nat
  deriving DecidableEq, Repr

/-- A block out of reset around a core state. -/
def Block.ofCore (s : State) : Block where
  core := s
  doneO := false
  hostRead := none
  busy := 0
  writing := ⟨0, 0⟩
  cuts := 0

/-- R74: "`line_o` equals `LINE`". -/
def Block.lineO (b : Block) : Bool := b.core.line

/-- R75: `host_rvalid`. -/
def Block.hostRvalid (b : Block) : Bool := b.hostRead.isSome

/-- R72, R75: `host_ready` at an edge. -/
def Block.hostReady (b : Block) (e : Edge) : Bool := !e.rst && decide (b.busy = 0)

/-- R75: a host transaction is accepted at an edge. -/
def Block.accepts (b : Block) (e : Edge) : Bool := e.hostValid && b.hostReady e

/-- R75: the word is an ENCODE or DECODE command. -/
def isCodecWord (w : TxnWord) : Bool :=
  match decodeHost w with
  | .instr (.cmdEncode _) => true
  | .instr (.cmdDecode _) => true
  | _ => false

/-- R182: how long the command that arrives in `s` holds `host_ready` at 0. -/
def stallCycles (w : TxnWord) (s : State) : Nat :=
  if isCodecWord w then Config.codecLatency s.lenBytes else 0

/-- R108, R109: the destination region of the ENCODE or DECODE command that arrives in `s`; no byte for another word. -/
def codecDestination (w : TxnWord) (s : State) : Region :=
  match decodeHost w with
  | .instr (.cmdEncode _) => ⟨s.dstAddr, 2 * s.lenBytes⟩
  | .instr (.cmdDecode _) => ⟨s.dstAddr, s.lenBytes / 2⟩
  | _ => ⟨0, 0⟩

/-- R166: the bytes a reset finds open while the word that took `s` to `t` holds `host_ready` at 0: its destination, or none
if it was refused, since a refused command writes no byte (R22). -/
def openBytes (w : TxnWord) (s t : State) : Region :=
  if t.reasons = s.reasons then codecDestination w s else ⟨0, 0⟩

/-- R75: the value a transaction returns, if it is a read. -/
def readData (es : List Event) : Option Word :=
  es.findSome? fun e => match e with
    | .read v => some v
    | .line _ => none
    | .done => none

/-- R72, R163, R166: a reset edge.  It ends the run; the destination bytes of a codec command it cuts are any value
in the next run (log entry 10). -/
def Block.resetEdge (b : Block) : Block :=
  if b.busy = 0 then
    { Block.ofCore b.core.afterReset with cuts := b.cuts }
  else
    let m := Memory.cut (Config.cutByte b.cuts) b.writing.base b.writing.size b.core.buf
    { Block.ofCore (State.initial b.core.cfg m) with cuts := b.cuts + 1 }

/-- R73, R76: the tick of an edge, before any host transaction. -/
def Block.tickPart (b : Block) (e : Edge) : Host.Outcome State Fault Refusal :=
  if e.tickI then runArrival .tick b.core else .next b.core

/-- R75, R76: the host transaction of an edge, after the tick; `c` is the state after the tick part. -/
def Block.hostPart (b : Block) (e : Edge) (c : State) : Host.Outcome Block Fault Refusal :=
  let pulse := (c.emittedSince b.core).contains .done
  if b.accepts e then
    andThen (runArrival (.host e.hostTxn) c) fun d =>
      .next { core := d, doneO := pulse, hostRead := readData (d.emittedSince c),
              busy := stallCycles e.hostTxn c, writing := openBytes e.hostTxn c d, cuts := b.cuts }
  else
    .next { b with core := c, doneO := pulse, hostRead := none, busy := b.busy - 1 }

/-- R72 to R76: one rising edge of `clk`. -/
def Block.edge (b : Block) (e : Edge) : Host.Outcome Block Fault Refusal :=
  if e.rst then .next b.resetEdge
  else andThen (b.tickPart e) (b.hostPart e)

end Sys2Proof.Machine
end

