-- ==== Sys2Proof/Safety.lean ====
section
/-! DEFINITION. What counts as a safe run, in the terms claims use: the invariant of spec/10_state.md R49 and the
observation of spec/00_scope.md R14. -/

namespace Sys2Proof.Machine

/-- R46, R14: the state of a run the spec describes; "every claim takes REFUSED = 0 as a premise on its final state". -/
def State.accepted (s : State) : Prop := s.refused = false

/-- R27 to R31, R37, R42, R43: every register of AW bits holds a value of AW bits. -/
structure RegistersFit (s : State) : Prop where
  src : s.src.toNat < s.cfg.memSize
  dst : s.dst.toNat < s.cfg.memSize
  len : s.len.toNat < s.cfg.memSize
  byteIdx : s.byteIdx.toNat < s.cfg.memSize
  frameBase : s.frameBase.toNat < s.cfg.memSize
  frameLen : s.frameLen.toNat < s.cfg.memSize

/-- R49, the case PHASE = Idle. -/
structure IdleContext (s : State) : Prop where
  frameBase : s.frameBase = 0
  frameLen : s.frameLen = 0
  bitIdx : s.bitIdx = 0
  preCnt : s.preCnt = 0 ∨ s.preCnt.toNat = s.cfg.preambleLen
  stopCnt : s.stopCnt = 0 ∨ s.stopCnt.toNat = s.cfg.stopLen

/-- R49, the case PHASE = Preamble. -/
structure PreambleContext (s : State) : Prop where
  preCnt : s.preCnt.toNat < s.cfg.preambleLen
  byteIdx : s.byteIdx = 0
  bitIdx : s.bitIdx = 0
  stopCnt : s.stopCnt = 0

/-- R49, the case PHASE = Payload (`0 ≤ BIT_IDX ≤ 7` is its type). -/
structure PayloadContext (s : State) : Prop where
  preCnt : s.preCnt.toNat = s.cfg.preambleLen
  frameLen : 1 ≤ s.frameLen.toNat
  byteIdx : s.byteIdx.toNat < s.frameLen.toNat
  stopCnt : s.stopCnt = 0

/-- R49, the case PHASE = Stop. -/
structure StopContext (s : State) : Prop where
  preCnt : s.preCnt.toNat = s.cfg.preambleLen
  byteIdx : s.byteIdx = s.frameLen
  bitIdx : s.bitIdx = 0
  stopCnt : s.stopCnt.toNat < s.cfg.stopLen

/-- R49, the case PHASE ≠ Idle. -/
structure ActiveFrameFits (s : State) : Prop where
  length : s.frameLen.toNat ≤ s.cfg.maxFrameLen
  region : s.frameBase.toNat + s.frameLen.toNat ≤ s.cfg.memSize

/-- R49: the invariant of the FramerContext. -/
structure FramerInv (s : State) : Prop where
  idle : s.phase = .idle → IdleContext s
  preamble : s.phase = .preamble → PreambleContext s
  payload : s.phase = .payload → PayloadContext s
  stop : s.phase = .stop → StopContext s
  active : s.phase ≠ .idle → ActiveFrameFits s

/-- The invariant of the whole state: R49 with the register widths, the canonical form of `BUF`, the status that is
never produced (R150), and the two records of refusal (R46, R151) agreeing. -/
structure State.Inv (s : State) : Prop where
  registers : RegistersFit s
  bufCanonical : Memory.wf s.buf = true
  bufWithin : Memory.within s.cfg.memSize s.buf = true
  status : s.status ≠ .working
  refusals : s.refused = !s.reasons.isEmpty
  framer : FramerInv s

/-- The FramerContext of R24: "`PHASE`, `BYTE_IDX`, `BIT_IDX`, `PRE_CNT`, `STOP_CNT`, `FRAME_BASE` and `FRAME_LEN`
together". -/
structure FramerContext where
  phase : Phase
  byteIdx : Word
  bitIdx : BitVec 3
  preCnt : BitVec 16
  stopCnt : BitVec 16
  frameBase : Word
  frameLen : Word
  deriving DecidableEq, Repr

/-- The FramerContext of a state. -/
def State.framerContext (s : State) : FramerContext :=
  ⟨s.phase, s.byteIdx, s.bitIdx, s.preCnt, s.stopCnt, s.frameBase, s.frameLen⟩

/-- R44: the address lies in the active frame. -/
def State.inActiveFrame (s : State) (a : Nat) : Prop :=
  s.phase ≠ .idle ∧ s.frameBase.toNat ≤ a ∧ a < s.frameBase.toNat + s.frameLen.toNat

/-- R62: `region(a, n)` and `region(b, m)` overlap, in the rule's own words. -/
def RegionsOverlap (a n b m : Nat) : Prop := n > 0 ∧ m > 0 ∧ a < b + m ∧ b < a + n

/-- R63: writing `region(a, n)` would write a byte of the active frame. -/
def State.WritesActiveFrame (s : State) (a n : Nat) : Prop :=
  s.phase ≠ .idle ∧ RegionsOverlap a n s.frameBase.toNat s.frameLen.toNat

/-- The addresses an operation stores to when it is not refused: ADDR of MEM_WRITE, and the destination region of a
codec command (R143, R108, R109). -/
def storesTo (i : Instr) (s : State) (a : Nat) : Prop :=
  match i with
  | .memWrite addr _ => a = addr.toNat
  | .cmdEncode _ => s.dstAddr ≤ a ∧ a < s.dstAddr + 2 * s.lenBytes
  | .cmdDecode _ => s.dstAddr ≤ a ∧ a < s.dstAddr + s.lenBytes / 2
  | .cmdStart => False
  | .wrSrc _ => False
  | .wrDst _ => False
  | .wrLen _ => False
  | .rdSrc => False
  | .rdDst => False
  | .rdLen => False
  | .rdCodecStatus => False
  | .rdFramerStatus => False
  | .rdByteIdx => False
  | .rdBitIdx => False
  | .rdCounters => False
  | .rdFrameBase => False
  | .rdFrameLen => False
  | .memRead _ => False
  | .tick => False

/-- A refused step, in the words of R13: the mark is set, the reason is named, and nothing else changes. -/
def State.refusedWith (s : State) (r : Reason) : State :=
  { s with refused := true, reasons := s.reasons ++ [r] }

/-- The bytes of the frame the framer references. -/
def State.frameBytes (s : State) : List Byte := s.buf.readBytes s.frameBase.toNat s.frameLen.toNat

/-- R54: the bits of a byte, most significant first. -/
def byteBits (b : Byte) : List Bool := msbFirst.map b.getLsbD

/-- R119: `P + 8L + S`, the ticks of the transmission a state holds. -/
def State.transmissionTicks (s : State) : Nat :=
  s.cfg.preambleLen + 8 * s.frameLen.toNat + s.cfg.stopLen

/-- R120: the levels of the transmission a state holds, in order. -/
def State.transmissionLevels (s : State) : List Bool :=
  s.cfg.preamble ++ s.frameBytes.flatMap byteBits ++ List.replicate s.cfg.stopLen false

/-- The levels among some events (R14: the OutputSink's record). -/
def lineLevels (es : List Event) : List Bool :=
  es.filterMap fun e => match e with
    | .line v => some v
    | .done => none
    | .read _ => none

/-- `n` ticks with nothing between them. -/
def runTicks (n : Nat) (s : State) : Host.Outcome State Fault Refusal :=
  runInstrs (List.replicate n .tick) s

/-- R119: the phase at the start of tick `t` of a transmission of `len` frame bytes. -/
def phaseAtTick (c : Config) (len t : Nat) : Phase :=
  if t ≤ c.preambleLen then .preamble
  else if t ≤ c.preambleLen + 8 * len then .payload
  else if t ≤ c.preambleLen + 8 * len + c.stopLen then .stop
  else .idle

end Sys2Proof.Machine
end

