-- ==== Sys2Proof/Certificates/Slice0/Obligations.lean ====
section
/-! DEFINITION. The statements for the provers.  They are about the operations, a step, the codec, the framer and the ports;
none is about a program.  A statement with a premise has its witness in Sys2Proof/Tests/Slice0.lean. -/

open Sys2Proof Sys2Proof.Machine

/-! ### Encoding -/

/-- No bit of an operand is dropped by the layouts of R79 to R85. -/
def Obligations.DecodeOfEncodeIsTheOperation : Prop :=
  ∀ i : Instr, decode (encode i) = .instr i

/-- The only bits of a word that do not matter are the ignored bits of a CMD word (R84, R92). -/
def Obligations.EncodeOfDecodeIsTheMeaningfulBits : Prop :=
  ∀ (w : TxnWord) (i : Instr), decode w = .instr i → encode i = w &&& meaningfulBits i

/-- R90: every word names exactly one operation of the opcode table, or is rejected; the decoder and the table agree. -/
def Obligations.DecoderAgreesWithTheOpcodeTable : Prop :=
  (∀ (w : TxnWord) (i : Instr), decode w = .instr i →
    ∃ row ∈ opcodeTable, row.mnemonic = i.mnemonic ∧ row.selects w = true) ∧
  (∀ (w : TxnWord), ∀ row ∈ opcodeTable, row.selects w = true →
    ∃ i, decode w = .instr i ∧ i.mnemonic = row.mnemonic) ∧
  (∀ (w : TxnWord), ∀ row ∈ opcodeTable, ∀ row' ∈ opcodeTable,
    row.selects w = true → row'.selects w = true → row = row')

/-- R91: each reserved or illegal encoding, first in the stream, is refused with no other change. -/
def Obligations.ReservedEncodingsAreRefused : Prop :=
  ∀ (s : State) (w : TxnWord) (rest : List Arrival), s.stream = .host w :: rest →
    ((kindField w).toNat ≥ 5 ∨
     (kindField w = 4 ∧ w ≠ 0x4000000000000000#64) ∨
     w = 0x4000000000000000#64 ∨
     ((kindField w = 0 ∨ kindField w = 1) ∧ regZeroField w ≠ 0) ∨
     (kindField w = 1 ∧ dataField w ≠ 0) ∨
     ((kindField w = 2 ∨ kindField w = 3) ∧ memZeroField w ≠ 0) ∨
     (kindField w = 3 ∧ byteField w ≠ 0) ∨
     (kindField w = 0 ∧ (regField w).toNat ≥ 4) ∨
     (kindField w = 1 ∧ ((regField w).toNat = 0 ∨ (regField w).toNat ≥ 11)) ∨
     (kindField w = 0 ∧ regField w = 0 ∧
       ((opField (dataField w)).toNat = 0 ∨ (opField (dataField w)).toNat ≥ 4)) ∨
     ((kindField w = 2 ∨ kindField w = 3) ∧ (addrField w).toNat ≥ s.cfg.memSize)) →
    step s = .next ({ s with stream := rest }.refusedWith .reservedEncoding)

/-- R127: what a write of `d` to CMD does, for every value of its ignored bits. -/
def Obligations.CmdWriteIssuesTheCommandOfItsFields : Prop :=
  ∀ (d : Word) (s : State),
    runArrival (.host (regWriteWord 0x0#4 d)) s =
      if d.extractLsb' 0 3 = 0b001#3 then exec (.cmdEncode (d.extractLsb' 4 2)) s
      else if d.extractLsb' 0 3 = 0b010#3 then exec (.cmdDecode (d.extractLsb' 4 2)) s
      else if d.extractLsb' 0 3 = 0b011#3 then exec .cmdStart s
      else .next (s.refusedWith .reservedEncoding)

/-- Six words of the listings of spec/95_test_vectors.md, read as the operations they are listed for, the example word of R127
(ENCODE under THOMAS) and the word of TICK (R83). -/
def Obligations.ListedWordsDecode : Prop :=
  decode 0x0000000000000011#64 = .instr (.cmdEncode 0b01#2) ∧
  decode 0x0000000000000022#64 = .instr (.cmdDecode 0b10#2) ∧
  decode 0x0000000000000003#64 = .instr .cmdStart ∧
  decode 0x0000000112340010#64 = .instr (.wrSrc 0x12340010#32) ∧
  decode 0x1000000A00000000#64 = .instr .rdFrameLen ∧
  decode 0x20000000000010AA#64 = .instr (.memWrite 0x10#32 0xAA#8) ∧
  decode 0x3000000000001000#64 = .instr (.memRead 0x10#32) ∧
  decode 0x4000000000000000#64 = .instr .tick

/-! ### A step -/

/-- A step runs the operation that arrives next, on the state without that arrival; when nothing arrives it changes
nothing, which is the model's (log entry 4, DESIGN CHOICE; R165 says that the block waits for its agents). -/
def Obligations.StepRunsTheNextArrival : Prop :=
  ∀ (s : State) (rest : List Arrival),
    (s.stream = [] → step s = .next s) ∧
    (s.stream = .tick :: rest → step s = exec .tick { s with stream := rest }) ∧
    (∀ (w : TxnWord) (i : Instr), s.stream = .host w :: rest → decode w = .instr i → i ≠ .tick →
      step s = exec i { s with stream := rest })

/-- The word of a listing, put first in the stream, is the very next operation to run. -/
def Obligations.ListedWordIsTheNextOperation : Prop :=
  ∀ (s : State) (nbits w : Nat) (i : Instr), decodeTableWord nbits w = some i →
    step (s.withFetchWord nbits w) = exec i s

/-- R13: a step has no fault outcome; it answers a next state, refusals included. -/
def Obligations.EveryStepAnswersANextState : Prop :=
  (∀ (i : Instr) (s : State), ∃ t, exec i s = .next t) ∧ (∀ s : State, ∃ t, step s = .next t)

/-- R13, R46: a step either names no reason of refusal and leaves the mark as it was, or is refused: then the mark is
set and nothing but the arrival it took is changed.  Nothing clears the mark, no event is taken back, and the
parameters stay. -/
def Obligations.RefusedStepChangesNothingElse : Prop :=
  ∀ s t : State, step s = .next t →
    (t.refused = s.refused ∧ t.reasons = s.reasons ∨
      ∃ r, t = { s with stream := s.stream.tail }.refusedWith r) ∧
    (s.refused = true → t.refused = true) ∧
    s.events <+: t.events ∧ s.reasons <+: t.reasons ∧ t.stream = s.stream.tail ∧ t.cfg = s.cfg

/-! ### Which operation changes which state -/

/-- R26: only START and TICK change the FramerContext. -/
def Obligations.OnlyStartAndTickChangeTheFramerContext : Prop :=
  ∀ (i : Instr) (s t : State), exec i s = .next t → i ≠ .cmdStart → i ≠ .tick →
    t.framerContext = s.framerContext

/-- R32: STATUS is written by ENCODE and DECODE only, and only with a code that is produced. -/
def Obligations.StatusIsWrittenByCodecCommandsOnly : Prop :=
  ∀ (i : Instr) (s t : State), exec i s = .next t →
    (∀ std, i = .cmdEncode std →
      t.status = .ok ∨ t.status = .errorStandard ∨ t = s.refusedWith .regionOutOfRange ∨
        t = s.refusedWith .regionOverlap ∨ t = s.refusedWith .borrowViolation) ∧
    (∀ std, i = .cmdDecode std →
      t.status = .ok ∨ t.status = .errorStandard ∨ t.status = .errorSize ∨
        t.status = .invalidEncode ∨ t = s.refusedWith .regionOutOfRange ∨
        t = s.refusedWith .regionOverlap ∨ t = s.refusedWith .borrowViolation) ∧
    ((∀ std, i ≠ .cmdEncode std ∧ i ≠ .cmdDecode std) → t.status = s.status)

/-- R29 to R31: "written only by the host ...; no command changes it". -/
def Obligations.OperandRegistersAreWrittenByTheirWritesOnly : Prop :=
  ∀ (i : Instr) (s t : State), exec i s = .next t →
    ((∀ d, i ≠ .wrSrc d) → t.src = s.src) ∧ ((∀ d, i ≠ .wrDst d) → t.dst = s.dst) ∧
    ((∀ d, i ≠ .wrLen d) → t.len = s.len)

/-- R64: "the only writers of BUF"; every byte an operation does not store to reads as before. -/
def Obligations.BytesOutsideTheStoredOnesAreUnchanged : Prop :=
  ∀ (i : Instr) (s t : State), Memory.wf s.buf = true → exec i s = .next t →
    ∀ a, ¬ storesTo i s a → t.readByte a = s.readByte a

/-- R36: LINE is the last level written, and only a tick outside Idle writes one, exactly one; it is 0
at reset. -/
def Obligations.LineIsTheLastLevelATickWrote : Prop :=
  (∀ (i : Instr) (s t : State), exec i s = .next t →
    ((i = .tick ∧ s.phase ≠ .idle) → lineLevels (t.emittedSince s) = [t.line]) ∧
    (¬ (i = .tick ∧ s.phase ≠ .idle) → lineLevels (t.emittedSince s) = [] ∧ t.line = s.line)) ∧
  (∀ (c : Config) (m : Memory), (State.initial c m).line = false)

/-- R35: what sets DONE, what clears it, and its reset value. -/
def Obligations.DoneIsSetByCompletionAndClearedByStart : Prop :=
  (∀ (i : Instr) (s t : State), exec i s = .next t →
    ((i = .tick ∧ s.phase = .stop ∧ t.phase = .idle) → t.done = true) ∧
    ((i = .cmdStart ∧ s.phase = .idle ∧ t.phase = .preamble) → t.done = false) ∧
    (¬ (i = .tick ∧ s.phase = .stop ∧ t.phase = .idle) →
      ¬ (i = .cmdStart ∧ s.phase = .idle ∧ t.phase = .preamble) → t.done = s.done)) ∧
  (∀ (c : Config) (m : Memory), (State.initial c m).done = false)

/-! ### The codec functions -/

/-- R100, the spec's own derivation: the bits of ENC8. -/
def Obligations.Enc8BitsAreTheSymbols : Prop :=
  ∀ (b : Byte) (k : Nat), k < 8 →
    (enc8 .ieee b).getLsbD (2 * k + 1) = !b.getLsbD k ∧
    (enc8 .ieee b).getLsbD (2 * k) = b.getLsbD k ∧
    (enc8 .thomas b).getLsbD (2 * k + 1) = b.getLsbD k ∧
    (enc8 .thomas b).getLsbD (2 * k) = !b.getLsbD k ∧
    enc8 .thomas b = ~~~(enc8 .ieee b) ∧ enc8 .thomas b = enc8 .ieee (~~~b)

/-- R102, the spec's own derivation: which chunks DEC16 takes, what it gives, and that they are those of ENC8. -/
def Obligations.Dec16TakesExactlyTheEncodedChunks : Prop :=
  (∀ (c : BitVec 16) (std : Standard),
    (dec16 std c).isSome = true ↔ ∀ k < 8, c.getLsbD (2 * k + 1) ≠ c.getLsbD (2 * k)) ∧
  (∀ (c : BitVec 16) (std : Standard) (b : Byte), dec16 std c = some b → ∀ k < 8,
    b.getLsbD k = match std with
      | .ieee => c.getLsbD (2 * k)
      | .thomas => c.getLsbD (2 * k + 1)) ∧
  (∀ (c : BitVec 16) (std : Standard) (b : Byte), dec16 std c = some b ↔ c = enc8 std b)

/-- R107, the spec's own derivation: the six laws of the sequence functions. -/
def Obligations.CodecSequenceLaws : Prop :=
  (∀ (p out : List Byte) (std : BitVec 2), encodeSeq p std = (.ok, out) →
    decodeSeq out std = (.ok, p)) ∧
  (∀ (p out : List Byte) (std : BitVec 2), encodeSeq p std = (.ok, out) →
    out.length = 2 * p.length) ∧
  (∀ (e : List Byte) (std : BitVec 2), e.length % 2 = 1 → (decodeSeq e std).1 = .errorSize) ∧
  (∀ (p e : List Byte) (std : BitVec 2), std = 0b10#2 ∨ std = 0b11#2 →
    (encodeSeq p std).1 = .errorStandard ∧
      (e.length % 2 = 0 → (decodeSeq e std).1 = .errorStandard)) ∧
  (∀ p : List Byte, (encodeSeq p 0b01#2).2 = (encodeSeq p 0b00#2).2.map (fun x => ~~~x)) ∧
  (∀ p : List Byte, decodeSeq (encodeSeq p 0b00#2).2 0b01#2 = (.ok, p.map (fun x => ~~~x)))

/-- R104, R105: the status of a decode is decided by size, then standard, then content in any position; and every status
other than OK has no output; an encode checks the standard alone. -/
def Obligations.DecodeStatusIsDecidedInOrder : Prop :=
  ∀ (e : List Byte) (std : BitVec 2),
    let bad := ∃ j k, ∃ (h : 2 * j + 1 < e.length), k < 8 ∧
      (symbolAt (e[2 * j] ++ e[2 * j + 1]) k = 0b00#2 ∨
       symbolAt (e[2 * j] ++ e[2 * j + 1]) k = 0b11#2)
    (e.length % 2 = 1 → decodeSeq e std = (.errorSize, [])) ∧
    (e.length % 2 = 0 → std = 0b10#2 ∨ std = 0b11#2 → decodeSeq e std = (.errorStandard, [])) ∧
    (e.length % 2 = 0 → std = 0b00#2 ∨ std = 0b01#2 → bad →
      decodeSeq e std = (.invalidEncode, [])) ∧
    (e.length % 2 = 0 → std = 0b00#2 ∨ std = 0b01#2 → ¬ bad →
      ∃ out, decodeSeq e std = (.ok, out) ∧ 2 * out.length = e.length) ∧
    (std = 0b10#2 ∨ std = 0b11#2 → (encodeSeq e std).1 = .errorStandard) ∧
    (std = 0b00#2 ∨ std = 0b01#2 → (encodeSeq e std).1 = .ok)

/-! ### The codec commands -/

/-- R108: ENCODE, every case of the rule, from every CMD word that encodes it.  The premise is the canonical form of `BUF`, which every step keeps. -/
def Obligations.EncodeCommandDoesWhatR108Says : Prop :=
  ∀ (s : State) (std : BitVec 2), Memory.wf s.buf = true →
    let a := s.src.toNat
    let d := s.dst.toNat
    let n := s.len.toNat
    let inRange := a + n ≤ s.cfg.memSize ∧ d + 2 * n ≤ s.cfg.memSize
    (¬ inRange → exec (.cmdEncode std) s = .next (s.refusedWith .regionOutOfRange)) ∧
    (inRange → RegionsOverlap a n d (2 * n) →
      exec (.cmdEncode std) s = .next (s.refusedWith .regionOverlap)) ∧
    (inRange → ¬ RegionsOverlap a n d (2 * n) → std = 0b10#2 ∨ std = 0b11#2 →
      exec (.cmdEncode std) s = .next { s with status := .errorStandard }) ∧
    (inRange → ¬ RegionsOverlap a n d (2 * n) → std = 0b00#2 ∨ std = 0b01#2 →
      s.WritesActiveFrame d (2 * n) →
      exec (.cmdEncode std) s = .next (s.refusedWith .borrowViolation)) ∧
    (∀ pol, inRange → ¬ RegionsOverlap a n d (2 * n) →
      (std = 0b00#2 ∧ pol = Standard.ieee ∨ std = 0b01#2 ∧ pol = Standard.thomas) →
      ¬ s.WritesActiveFrame d (2 * n) →
      ∃ t, exec (.cmdEncode std) s = .next t ∧ t = { s with buf := t.buf, status := .ok } ∧
        (∀ k < n, t.readByte (d + 2 * k) = (enc8 pol (s.readByte (a + k))).extractLsb' 8 8 ∧
          t.readByte (d + 2 * k + 1) = (enc8 pol (s.readByte (a + k))).extractLsb' 0 8) ∧
        ∀ x, ¬ (d ≤ x ∧ x < d + 2 * n) → t.readByte x = s.readByte x) ∧
    (∀ v : Word, v.extractLsb' 0 3 = 0b001#3 → v.extractLsb' 4 2 = std →
      runArrival (.host (regWriteWord 0x0#4 v)) s = exec (.cmdEncode std) s)

/-- R109: DECODE, every case of the rule, from every CMD word that encodes it, with R106: a status other than OK writes
no byte. -/
def Obligations.DecodeCommandDoesWhatR109Says : Prop :=
  ∀ (s : State) (std : BitVec 2), Memory.wf s.buf = true →
    let a := s.src.toNat
    let d := s.dst.toNat
    let n := s.len.toNat
    let m := n / 2
    let inRange := a + n ≤ s.cfg.memSize ∧ d + m ≤ s.cfg.memSize
    let chunk := fun j => s.readByte (a + 2 * j) ++ s.readByte (a + 2 * j + 1)
    (¬ inRange → exec (.cmdDecode std) s = .next (s.refusedWith .regionOutOfRange)) ∧
    (inRange → RegionsOverlap a n d m →
      exec (.cmdDecode std) s = .next (s.refusedWith .regionOverlap)) ∧
    (inRange → ¬ RegionsOverlap a n d m → n % 2 = 1 →
      exec (.cmdDecode std) s = .next { s with status := .errorSize }) ∧
    (inRange → ¬ RegionsOverlap a n d m → n % 2 = 0 → std = 0b10#2 ∨ std = 0b11#2 →
      exec (.cmdDecode std) s = .next { s with status := .errorStandard }) ∧
    (∀ pol, inRange → ¬ RegionsOverlap a n d m → n % 2 = 0 →
      (std = 0b00#2 ∧ pol = Standard.ieee ∨ std = 0b01#2 ∧ pol = Standard.thomas) →
      ((∃ j < m, dec16 pol (chunk j) = none) →
        exec (.cmdDecode std) s = .next { s with status := .invalidEncode }) ∧
      ((∀ j < m, dec16 pol (chunk j) ≠ none) → s.WritesActiveFrame d m →
        exec (.cmdDecode std) s = .next (s.refusedWith .borrowViolation)) ∧
      ((∀ j < m, dec16 pol (chunk j) ≠ none) → ¬ s.WritesActiveFrame d m →
        ∃ t, exec (.cmdDecode std) s = .next t ∧ t = { s with buf := t.buf, status := .ok } ∧
          (∀ j < m, some (t.readByte (d + j)) = dec16 pol (chunk j)) ∧
          ∀ x, ¬ (d ≤ x ∧ x < d + m) → t.readByte x = s.readByte x)) ∧
    (∀ v : Word, v.extractLsb' 0 3 = 0b010#3 → v.extractLsb' 4 2 = std →
      runArrival (.host (regWriteWord 0x0#4 v)) s = exec (.cmdDecode std) s)

/-- The round trip in memory: what an ENCODE wrote, a DECODE under the same standard gives back, byte for byte. -/
def Obligations.DecodeCommandRestoresAnEncodedPayload : Prop :=
  ∀ (s t u v : State) (std : BitVec 2) (back : Word), Memory.wf s.buf = true → s.refused = false →
    exec (.cmdEncode std) s = .next t → t.refused = false → t.status = .ok →
    u = { t with src := s.dst, len := u.len, dst := back } → u.len.toNat = 2 * s.len.toNat →
    exec (.cmdDecode std) u = .next v → v.refused = false →
    v.status = .ok ∧
      ∀ k < s.len.toNat, v.readByte (back.toNat + k) = s.readByte (s.src.toNat + k)

/-! ### The framer -/

/-- R112: START, accepted, ignored and refused, from every CMD word that encodes it. -/
def Obligations.StartDoesWhatR112Says : Prop :=
  ∀ s : State,
    (s.phase ≠ .idle → exec .cmdStart s = .next s) ∧
    (s.phase = .idle →
      (s.len.toNat > s.cfg.maxFrameLen ∨ s.src.toNat + s.len.toNat > s.cfg.memSize) →
      exec .cmdStart s = .next (s.refusedWith .frameOutOfRange)) ∧
    (s.phase = .idle → s.len.toNat ≤ s.cfg.maxFrameLen →
      s.src.toNat + s.len.toNat ≤ s.cfg.memSize →
      exec .cmdStart s = .next
        { s with
          frameBase := s.src, frameLen := s.len, byteIdx := 0, bitIdx := 0, preCnt := 0,
          stopCnt := 0, done := false, phase := .preamble }) ∧
    (∀ v : Word, v.extractLsb' 0 3 = 0b011#3 →
      runArrival (.host (regWriteWord 0x0#4 v)) s = exec .cmdStart s)

/-- R114, and R171 with it: ticks in Idle change nothing, so a START finds the framer as the host polled it. -/
def Obligations.IdleTicksChangeNothing : Prop :=
  ∀ (s : State) (n : Nat), s.phase = .idle → runTicks n s = .next s

/-- R115: a tick in Preamble, in every state whose counter is within the pattern (R49). -/
def Obligations.PreambleTickDoesWhatR115Says : Prop :=
  ∀ s : State, s.phase = .preamble → ∀ h : s.preCnt.toNat < s.cfg.preamble.length,
    let v := s.cfg.preamble[s.preCnt.toNat]
    let last := s.preCnt.toNat + 1 = s.cfg.preambleLen
    (¬ last → exec .tick s = .next
      { s with line := v, events := s.events ++ [.line v], preCnt := s.preCnt + 1 }) ∧
    (last → s.frameLen.toNat = 0 → exec .tick s = .next
      { s with
        line := v, events := s.events ++ [.line v], preCnt := s.preCnt + 1, byteIdx := 0,
        bitIdx := 0, stopCnt := 0, phase := .stop }) ∧
    (last → s.frameLen.toNat ≠ 0 → exec .tick s = .next
      { s with
        line := v, events := s.events ++ [.line v], preCnt := s.preCnt + 1, byteIdx := 0,
        bitIdx := 0, phase := .payload })

/-- R116: a tick in Payload, in every state that meets the invariant (R49): the address is in BUF, the bit is the current
one, most significant first, and the cursors move on. -/
def Obligations.PayloadTickDoesWhatR116Says : Prop :=
  ∀ s : State, s.Inv → s.phase = .payload →
    let addr := s.frameBase.toNat + s.byteIdx.toNat
    let v := (s.readByte addr).getLsbD (7 - s.bitIdx.toNat)
    addr < s.cfg.memSize ∧
    (s.bitIdx.toNat < 7 → ∃ j : BitVec 3, j.toNat = s.bitIdx.toNat + 1 ∧
      exec .tick s = .next { s with line := v, events := s.events ++ [.line v], bitIdx := j }) ∧
    (s.bitIdx.toNat = 7 → s.byteIdx.toNat + 1 ≠ s.frameLen.toNat →
      ∃ j : Word, j.toNat = s.byteIdx.toNat + 1 ∧
        exec .tick s = .next
          { s with line := v, events := s.events ++ [.line v], bitIdx := 0, byteIdx := j }) ∧
    (s.bitIdx.toNat = 7 → s.byteIdx.toNat + 1 = s.frameLen.toNat →
      exec .tick s = .next
        { s with
          line := v, events := s.events ++ [.line v], bitIdx := 0, byteIdx := s.frameLen,
          stopCnt := 0, phase := .stop })

/-- R117: a tick in Stop, in every state whose counter is below S (R49). -/
def Obligations.StopTickDoesWhatR117Says : Prop :=
  ∀ s : State, s.phase = .stop → s.stopCnt.toNat < s.cfg.stopLen →
    (s.stopCnt.toNat + 1 ≠ s.cfg.stopLen → exec .tick s = .next
      { s with line := false, events := s.events ++ [.line false], stopCnt := s.stopCnt + 1 }) ∧
    (s.stopCnt.toNat + 1 = s.cfg.stopLen → exec .tick s = .next
      { s with
        line := false, events := s.events ++ [.line false, .done], stopCnt := s.stopCnt + 1,
        frameBase := 0, frameLen := 0, done := true, phase := .idle })

/-- R113: a tick never refuses, reads no register of the codec, and never writes BUF, STATUS, SRC, DST or LEN.  That it does not
read them is said by changing them: the tick then does the same. -/
def Obligations.TickNeitherReadsNorWritesTheCodecRegisters : Prop :=
  ∀ s t : State, exec .tick s = .next t →
    t.refused = s.refused ∧ t.reasons = s.reasons ∧ t.buf = s.buf ∧ t.status = s.status ∧
    t.src = s.src ∧ t.dst = s.dst ∧ t.len = s.len ∧
    ∀ (src dst len : Word) (status : Status),
      exec .tick { s with src := src, dst := dst, len := len, status := status } =
        .next { t with src := src, dst := dst, len := len, status := status }

/-- R125, R112: a tick depends on at most one byte of BUF, the current frame byte, and only in Payload; START on none. -/
def Obligations.FramerReadsAtMostOneByte : Prop :=
  ∀ (s t : State) (m : Memory),
    (exec .tick s = .next t → (s.phase = .payload → m.readByte s.framePos = s.readByte s.framePos) →
      exec .tick { s with buf := m } = .next { t with buf := m }) ∧
    (exec .cmdStart s = .next t → exec .cmdStart { s with buf := m } = .next { t with buf := m })

/-- R118: an empty frame is accepted and sent as preamble and stop bits alone, never in Payload; Stop starts with its counter
at 0. -/
def Obligations.EmptyFrameHasNoPayload : Prop :=
  ∀ s : State, s.phase = .idle → s.len.toNat = 0 → s.src.toNat < s.cfg.memSize →
    ∃ u, exec .cmdStart s = .next u ∧ u.phase = .preamble ∧
      (∀ k < s.cfg.preambleLen + s.cfg.stopLen, ∃ v, runTicks k u = .next v ∧
        v.phase = (if k < s.cfg.preambleLen then .preamble else .stop) ∧
        (k = s.cfg.preambleLen → v.stopCnt = 0)) ∧
      ∃ v, runTicks (s.cfg.preambleLen + s.cfg.stopLen) u = .next v ∧ v.phase = .idle ∧
        v.done = true ∧ lineLevels (v.emittedSince u) =
          s.cfg.preamble ++ List.replicate s.cfg.stopLen false

/-- R119, the spec's own derivation: after an accepted START, the phase at the start of every tick, and the one tick that
emits `done`. -/
def Obligations.TransmissionTakesItsTicks : Prop :=
  ∀ s u : State, s.phase = .idle → exec .cmdStart s = .next u → u.phase = .preamble →
    ∀ n, ∃ v, runTicks n u = .next v ∧
      v.phase = phaseAtTick s.cfg s.len.toNat (n + 1) ∧
      (v.emittedSince u).count .done =
        if s.cfg.preambleLen + 8 * s.len.toNat + s.cfg.stopLen ≤ n then 1 else 0

/-- R120, the spec's own derivation: the levels of one transmission, in order, one per tick. -/
def Obligations.TransmissionSendsItsLevels : Prop :=
  ∀ s u : State, s.phase = .idle → exec .cmdStart s = .next u → u.phase = .preamble →
    ∃ v, runTicks u.transmissionTicks u = .next v ∧
      lineLevels (v.emittedSince u) = u.transmissionLevels ∧
      u.transmissionLevels.length = u.transmissionTicks

/-- Whatever the host does between the ticks, a transmission sends the levels of the frame as it was at START, as long
as no transaction is refused (R64, R68, R170). -/
def Obligations.TransmissionIsUnaffectedByTheHost : Prop :=
  ∀ (s u v : State) (is : List Instr), s.Inv → s.refused = false → s.phase = .idle →
    exec .cmdStart s = .next u → u.phase = .preamble →
    is.count .tick = u.transmissionTicks → runInstrs is u = .next v → v.refused = false →
    lineLevels (v.emittedSince u) = u.transmissionLevels

/-- R63: no operation changes a byte of the active frame. -/
def Obligations.ActiveFrameBytesNeverChange : Prop :=
  ∀ (i : Instr) (s t : State), Memory.wf s.buf = true → exec i s = .next t →
    ∀ a, s.inActiveFrame a → t.readByte a = s.readByte a

/-- R65, the spec's own derivation: a codec command that is not refused and a tick commute, events included. -/
def Obligations.CodecCommandAndTickCommute : Prop :=
  ∀ (s t u : State) (i : Instr) (std : BitVec 2), s.Inv → s.refused = false →
    (i = .cmdEncode std ∨ i = .cmdDecode std) →
    runInstrs [i, .tick] s = .next t → t.refused = false →
    runInstrs [.tick, i] s = .next u → u = t

/-! ### Host access -/

/-- R128 to R130: an operand register keeps the low AW bits of what is written, and nothing else changes. -/
def Obligations.OperandRegisterWritesKeepAwBits : Prop :=
  ∀ (s : State) (data : Word), ∃ v : Word, v.toNat = data.toNat % 2 ^ s.cfg.aw ∧
    exec (.wrSrc data) s = .next { s with src := v } ∧
    exec (.wrDst data) s = .next { s with dst := v } ∧
    exec (.wrLen data) s = .next { s with len := v } ∧
    runArrival (.host (regWriteWord 0x1#4 data)) s = exec (.wrSrc data) s ∧
    runArrival (.host (regWriteWord 0x2#4 data)) s = exec (.wrDst data) s ∧
    runArrival (.host (regWriteWord 0x3#4 data)) s = exec (.wrLen data) s

/-- R132 to R141: the number each register is read by, the value the read returns, and that nothing but the event is new. -/
def Obligations.RegisterReadsReturnTheirRegisters : Prop :=
  ∀ s : State,
    let reads := fun (reg : BitVec 4) (i : Instr) (n : Nat) =>
      runArrival (.host (regReadWord reg)) s = exec i s ∧
      ∃ v : Word, v.toNat = n ∧ exec i s = .next { s with events := s.events ++ [.read v] }
    reads 0x1#4 .rdSrc s.src.toNat ∧ reads 0x2#4 .rdDst s.dst.toNat ∧
    reads 0x3#4 .rdLen s.len.toNat ∧
    reads 0x4#4 .rdCodecStatus (match s.status with
      | .ok => 0
      | .invalidEncode => 1
      | .errorStandard => 2
      | .errorSize => 3
      | .working => 4) ∧
    reads 0x5#4 .rdFramerStatus (8 * s.line.toNat + 4 * s.done.toNat + match s.phase with
      | .idle => 0
      | .preamble => 1
      | .payload => 2
      | .stop => 3) ∧
    reads 0x6#4 .rdByteIdx s.byteIdx.toNat ∧ reads 0x7#4 .rdBitIdx s.bitIdx.toNat ∧
    reads 0x8#4 .rdCounters (65536 * s.stopCnt.toNat + s.preCnt.toNat) ∧
    reads 0x9#4 .rdFrameBase s.frameBase.toNat ∧ reads 0xA#4 .rdFrameLen s.frameLen.toNat

/-- R27: the reserved bits [31:AW] of every register of AW bits read 0, in every state that meets the invariant. -/
def Obligations.ReservedRegisterBitsReadZero : Prop :=
  ∀ (s : State) (i : Instr), s.Inv →
    (i = .rdSrc ∨ i = .rdDst ∨ i = .rdLen ∨ i = .rdByteIdx ∨ i = .rdFrameBase ∨ i = .rdFrameLen) →
    ∃ (t : State) (v : Word), exec i s = .next t ∧ t.emittedSince s = [.read v] ∧
      ∀ k, s.cfg.aw ≤ k → v.getLsbD k = false

/-- R143: MEM_WRITE, every case of the rule, and its word. -/
def Obligations.MemWriteDoesWhatR143Says : Prop :=
  ∀ (s : State) (addr : Word) (data : Byte), Memory.wf s.buf = true →
    (s.cfg.memSize ≤ addr.toNat →
      exec (.memWrite addr data) s = .next (s.refusedWith .reservedEncoding)) ∧
    (addr.toNat < s.cfg.memSize → s.inActiveFrame addr.toNat →
      exec (.memWrite addr data) s = .next (s.refusedWith .borrowViolation)) ∧
    (addr.toNat < s.cfg.memSize → ¬ s.inActiveFrame addr.toNat →
      ∃ t, exec (.memWrite addr data) s = .next t ∧ t = { s with buf := t.buf } ∧
        t.readByte addr.toNat = data ∧ ∀ a, a ≠ addr.toNat → t.readByte a = s.readByte a) ∧
    runArrival (.host (memWriteWord addr data)) s = exec (.memWrite addr data) s

/-- R144: MEM_READ, every case of the rule, and its word; a byte nothing has written reads as the run's initial content. -/
def Obligations.MemReadDoesWhatR144Says : Prop :=
  ∀ (s : State) (addr : Word),
    (s.cfg.memSize ≤ addr.toNat →
      exec (.memRead addr) s = .next (s.refusedWith .reservedEncoding)) ∧
    (addr.toNat < s.cfg.memSize → ∃ v : Word, v.toNat = (s.readByte addr.toNat).toNat ∧
      exec (.memRead addr) s = .next { s with events := s.events ++ [.read v] } ∧
      ((∀ c ∈ s.buf, c.1 ≠ addr.toNat) →
        v.toNat = (Config.initialBuf addr.toNat).toNat)) ∧
    runArrival (.host (memReadWord addr)) s = exec (.memRead addr) s

/-- R64: a read returns the last byte written to its address: what a MEM_WRITE stored is read back after any transactions
but a MEM_WRITE to the same address or a codec command. -/
def Obligations.ReadReturnsTheLastByteWritten : Prop :=
  ∀ (s t u : State) (addr : Word) (data : Byte) (is : List Instr), Memory.wf s.buf = true →
    s.refused = false → exec (.memWrite addr data) s = .next t → t.refused = false → runInstrs is t = .next u →
    (∀ i ∈ is, ∀ x, i ≠ .memWrite addr x) →
    (∀ i ∈ is, ∀ std, i ≠ .cmdEncode std ∧ i ≠ .cmdDecode std) →
    ∃ v : Word, v.toNat = data.toNat ∧
      exec (.memRead addr) u = .next { u with events := u.events ++ [.read v] }

/-- R60: writing the same value twice leaves the same state as writing it once. -/
def Obligations.WritesAreIdempotent : Prop :=
  ∀ (s t : State) (i : Instr), Memory.wf s.buf = true → s.refused = false → exec i s = .next t →
    t.refused = false →
    (∃ d, i = .wrSrc d ∨ i = .wrDst d ∨ i = .wrLen d) ∨ (∃ a x, i = .memWrite a x) →
    exec i t = .next t

/-! ### Reset and the ports -/

/-- R163: a reset edge sets every register and framer element, whatever else the edge holds; it does not write BUF (when no
codec command is running; CutCommandLeavesItsDestinationBytesOpen says R166).  `host_ready` is R72's and R165's.  The
clear mark is not R163's: it is the model's (log entry 10, DEDUCED from R164 and R166: what follows a reset is a new
run). -/
def Obligations.ResetEdgeSetsTheResetValues : Prop :=
  ∀ (b : Block) (e : Edge), e.rst = true → ∃ r, b.edge e = .next r ∧
    r.core.src = 0 ∧ r.core.dst = 0 ∧ r.core.len = 0 ∧ r.core.status = .ok ∧
    r.core.phase = .idle ∧ r.core.done = false ∧ r.core.line = false ∧ r.core.byteIdx = 0 ∧
    r.core.bitIdx = 0 ∧ r.core.preCnt = 0 ∧ r.core.stopCnt = 0 ∧ r.core.frameBase = 0 ∧
    r.core.frameLen = 0 ∧ r.core.refused = false ∧ r.lineO = false ∧ r.doneO = false ∧
    r.core.cfg = b.core.cfg ∧ (b.busy = 0 → r.core.buf = b.core.buf) ∧
    b.hostReady e = false ∧ ∀ e', e'.rst = false → r.hostReady e' = true

/-- R166, row 12 of spec/93_implementation_defined.md: a reset that cuts a codec command starts a new run in which every
destination byte of the command is a free value and every other byte of BUF is kept.  The free values leave room for
R166's "any subset of its destination bytes written": each such memory is one that they allow (log entry 10). -/
def Obligations.CutCommandLeavesItsDestinationBytesOpen : Prop :=
  (∀ (b r : Block) (e : Edge), Memory.wf b.core.buf = true → b.busy > 0 → e.rst = true →
    b.edge e = .next r →
    r.core = State.initial b.core.cfg r.core.buf ∧ Memory.wf r.core.buf = true ∧
    r.cuts = b.cuts + 1 ∧
    ∀ a, let inDst := b.writing.base ≤ a ∧ a < b.writing.base + b.writing.size
      (inDst → r.core.readByte a = Config.cutByte b.cuts a) ∧
      (¬ inDst → r.core.readByte a = b.core.readByte a)) ∧
  (∀ (before : Memory) (d : Nat) (out : List Byte) (written : Nat → Bool), Memory.wf before = true →
    let after := before.writeBytes d out
    ∃ free : Nat → Byte, ∀ a, (Memory.cut free d out.length after).readByte a =
      if written a then after.readByte a else before.readByte a)

/-- R76: on one edge the tick comes first and the host transaction second; so a START with the last Stop tick is accepted and a
START with a Preamble tick is ignored, and a register read returns the state after the tick. -/
def Obligations.TickComesBeforeTheHostOnOneEdge : Prop :=
  ∀ (b : Block) (e : Edge) (i : Instr) (c : State), e.rst = false → e.tickI = true →
    e.hostValid = true → b.busy = 0 → decodeHost e.hostTxn = .instr i →
    exec .tick b.core = .next c →
    ∃ d r, exec i c = .next d ∧ b.edge e = .next r ∧ r.core = d ∧
      (i = .cmdStart → b.core.phase = .stop → b.core.stopCnt.toNat + 1 = b.core.cfg.stopLen →
        c.frameTooLarge = false → d.phase = .preamble ∧ d.done = false) ∧
      (i = .cmdStart → b.core.phase = .preamble → d = c) ∧
      (∀ v, d.events = c.events ++ [.read v] → r.hostRead = some v)

/-- R74: `line_o` is LINE, and `done_o` is 1 exactly after an edge whose tick emitted `done`. -/
def Obligations.LineAndDoneOutputs : Prop :=
  ∀ (b r : Block) (e : Edge), b.edge e = .next r →
    r.lineO = r.core.line ∧
    (e.rst = false → e.tickI = false ∨ b.core.phase = .idle → r.lineO = b.lineO) ∧
    (r.doneO = true ↔ e.rst = false ∧ e.tickI = true ∧
      ∃ c, exec .tick b.core = .next c ∧ Event.done ∈ c.emittedSince b.core)

/-- R73, R75: an edge with a tick is one TICK step, and an accepted transaction is then one step; a read returns its data,
and only a read does; a codec command, a refused one too, holds `host_ready` at 0 for `CODEC_LATENCY` cycles, in which no
transaction is accepted and ticks go on.  The length of the hold is the model's (log entry 9, DESIGN CHOICE; R182 is
OPEN and not normative), and so is that the command takes effect at its accepting edge (log entry 11, DESIGN
CHOICE). -/
def Obligations.HostPortHandshake : Prop :=
  ∀ (b r : Block) (e : Edge), e.rst = false → b.edge e = .next r →
    ∃ c, (e.tickI = true → exec .tick b.core = .next c) ∧ (e.tickI = false → c = b.core) ∧
      (b.hostReady e = true ↔ b.busy = 0) ∧
      (e.hostValid = true → b.hostReady e = true →
        runArrival (.host e.hostTxn) c = .next r.core ∧
        (∀ v, r.hostRead = some v ↔ r.core.emittedSince c = [.read v]) ∧
        r.busy = if isCodecWord e.hostTxn then Config.codecLatency c.len.toNat else 0) ∧
      (¬ (e.hostValid = true ∧ b.hostReady e = true) →
        r.core = c ∧ r.hostRvalid = false ∧ r.busy = b.busy - 1)

/-- R166 with R108, R109: the bytes a reset would find open while a codec command holds `host_ready` at 0.  An accepted edge
records the destination region of an ENCODE or DECODE that is not refused, and no byte for another word; the region
lies in BUF; an edge that accepts nothing keeps what was recorded (the record is the model's, log entry 10). -/
def Obligations.AcceptedCommandRecordsItsDestination : Prop :=
  ∀ (b r : Block) (e : Edge) (c : State), e.rst = false → b.edge e = .next r →
    (e.tickI = true → exec .tick b.core = .next c) → (e.tickI = false → c = b.core) →
    (¬ (e.hostValid = true ∧ b.busy = 0) → r.writing = b.writing) ∧
    (e.hostValid = true → b.busy = 0 →
      (∀ std, decodeHost e.hostTxn = .instr (.cmdEncode std) → r.core.reasons = c.reasons →
        r.writing = ⟨c.dst.toNat, 2 * c.len.toNat⟩) ∧
      (∀ std, decodeHost e.hostTxn = .instr (.cmdDecode std) → r.core.reasons = c.reasons →
        r.writing = ⟨c.dst.toNat, c.len.toNat / 2⟩) ∧
      (isCodecWord e.hostTxn = false ∨ r.core.reasons ≠ c.reasons → r.writing = ⟨0, 0⟩) ∧
      r.writing.base + r.writing.size ≤ r.core.cfg.memSize)

/-- R95: the expansion of each pseudo-instruction, and the operations its words decode to. -/
def Obligations.PseudoInstructionsExpand : Prop :=
  (∀ n : BitVec 2, (AsmLine.encodeStd n).words =
      (AsmLine.wr 0x0#4 ((n.setWidth 32 <<< 4) ||| 0x1#32)).words ∧
    (AsmLine.encodeStd n).words.map decode = [.instr (.cmdEncode n)]) ∧
  (∀ n : BitVec 2, (AsmLine.decodeStd n).words =
      (AsmLine.wr 0x0#4 ((n.setWidth 32 <<< 4) ||| 0x2#32)).words ∧
    (AsmLine.decodeStd n).words.map decode = [.instr (.cmdDecode n)]) ∧
  (AsmLine.start.words = (AsmLine.wr 0x0#4 0x03#32).words ∧
    AsmLine.start.words.map decode = [.instr .cmdStart]) ∧
  (∀ s d n : Word, (AsmLine.setup s d n).words =
      (AsmLine.wr 0x1#4 s).words ++ (AsmLine.wr 0x2#4 d).words ++ (AsmLine.wr 0x3#4 n).words ∧
    (AsmLine.setup s d n).words.map decode =
      [.instr (.wrSrc s), .instr (.wrDst d), .instr (.wrLen n)]) ∧
  (∀ (a : Word) (bs : List Byte), (AsmLine.mwb a bs).words =
      (bs.mapIdx fun k x => (AsmLine.mw (a + BitVec.ofNat 32 k) x).words).flatten ∧
    (AsmLine.mwb a bs).words.map decode =
      bs.mapIdx fun k x => .instr (.memWrite (a + BitVec.ofNat 32 k) x)) ∧
  (∀ n : Nat, (AsmLine.ticks n).words = (List.replicate n AsmLine.tick.words).flatten ∧
    (AsmLine.ticks n).words.map decode = List.replicate n (.instr .tick))

/-! ### Invariants -/

/-- Every step keeps the invariant: R49, the register widths, the canonical form of BUF, and the status. -/
def Obligations.StepKeepsTheInvariant : Prop :=
  ∀ s t : State, s.Inv → step s = .next t → t.Inv

/-- The invariant holds in the initial state of a run, for every configuration and every initial content listed in
canonical form within BUF; so it holds at reset. -/
def Obligations.InitialStatesMeetTheInvariant : Prop :=
  (∀ (c : Config) (m : Memory), Memory.wf m = true → Memory.within c.memSize m = true →
    (State.initial c m).Inv) ∧ State.reset.Inv

/-- R49, the spec's own derivation: in every state reachable from reset, for any configuration, initial content and stream
of arrivals, the FramerContext is as the rule lists. -/
def Obligations.ReachableFramerContextsAreLegal : Prop :=
  ∀ (c : Config) (m : Memory) (arrivals : List Arrival) (n : Nat) (t : State),
    Memory.wf m = true → Memory.within c.memSize m = true →
    core.run n { State.initial c m with stream := arrivals } = .next t → FramerInv t

/-- R15 to R18, R20: a block is built exactly from the parameters within the ranges. -/
def Obligations.OnlyLegalConfigurationsAreBuilt : Prop :=
  ∀ (aw maxLen p : Nat) (pattern : List Bool) (s : Nat),
    (Config.build aw maxLen p pattern s).isSome = true ↔
      1 ≤ aw ∧ aw ≤ 32 ∧ maxLen ≤ 2 ^ aw - 1 ∧ 1 ≤ p ∧ p ≤ 65535 ∧ pattern.length = p ∧
        1 ≤ s ∧ s ≤ 65535
end

