-- ==== Sys2Proof/Laws/State.lean ====
section
/-! SUPPORT. What each named update of the state does to each field: one lemma per field per update, so that no proof
unfolds a record update. -/

namespace Sys2Proof.Machine

/-! ### `State.emit` -/

@[simp] theorem State.emit_cfg (s : State) (e : Event) :
    (s.emit e).cfg = s.cfg := rfl
@[simp] theorem State.emit_src (s : State) (e : Event) :
    (s.emit e).src = s.src := rfl
@[simp] theorem State.emit_dst (s : State) (e : Event) :
    (s.emit e).dst = s.dst := rfl
@[simp] theorem State.emit_len (s : State) (e : Event) :
    (s.emit e).len = s.len := rfl
@[simp] theorem State.emit_status (s : State) (e : Event) :
    (s.emit e).status = s.status := rfl
@[simp] theorem State.emit_phase (s : State) (e : Event) :
    (s.emit e).phase = s.phase := rfl
@[simp] theorem State.emit_done (s : State) (e : Event) :
    (s.emit e).done = s.done := rfl
@[simp] theorem State.emit_line (s : State) (e : Event) :
    (s.emit e).line = s.line := rfl
@[simp] theorem State.emit_byteIdx (s : State) (e : Event) :
    (s.emit e).byteIdx = s.byteIdx := rfl
@[simp] theorem State.emit_bitIdx (s : State) (e : Event) :
    (s.emit e).bitIdx = s.bitIdx := rfl
@[simp] theorem State.emit_preCnt (s : State) (e : Event) :
    (s.emit e).preCnt = s.preCnt := rfl
@[simp] theorem State.emit_stopCnt (s : State) (e : Event) :
    (s.emit e).stopCnt = s.stopCnt := rfl
@[simp] theorem State.emit_frameBase (s : State) (e : Event) :
    (s.emit e).frameBase = s.frameBase := rfl
@[simp] theorem State.emit_frameLen (s : State) (e : Event) :
    (s.emit e).frameLen = s.frameLen := rfl
@[simp] theorem State.emit_buf (s : State) (e : Event) :
    (s.emit e).buf = s.buf := rfl
@[simp] theorem State.emit_refused (s : State) (e : Event) :
    (s.emit e).refused = s.refused := rfl
@[simp] theorem State.emit_stream (s : State) (e : Event) :
    (s.emit e).stream = s.stream := rfl
@[simp] theorem State.emit_events (s : State) (e : Event) :
    (s.emit e).events = s.events ++ [e] := rfl
@[simp] theorem State.emit_reasons (s : State) (e : Event) :
    (s.emit e).reasons = s.reasons := rfl

/-! ### `State.lineWrite` -/

@[simp] theorem State.lineWrite_cfg (s : State) (v : Bool) :
    (s.lineWrite v).cfg = s.cfg := rfl
@[simp] theorem State.lineWrite_src (s : State) (v : Bool) :
    (s.lineWrite v).src = s.src := rfl
@[simp] theorem State.lineWrite_dst (s : State) (v : Bool) :
    (s.lineWrite v).dst = s.dst := rfl
@[simp] theorem State.lineWrite_len (s : State) (v : Bool) :
    (s.lineWrite v).len = s.len := rfl
@[simp] theorem State.lineWrite_status (s : State) (v : Bool) :
    (s.lineWrite v).status = s.status := rfl
@[simp] theorem State.lineWrite_phase (s : State) (v : Bool) :
    (s.lineWrite v).phase = s.phase := rfl
@[simp] theorem State.lineWrite_done (s : State) (v : Bool) :
    (s.lineWrite v).done = s.done := rfl
@[simp] theorem State.lineWrite_line (s : State) (v : Bool) :
    (s.lineWrite v).line = v := rfl
@[simp] theorem State.lineWrite_byteIdx (s : State) (v : Bool) :
    (s.lineWrite v).byteIdx = s.byteIdx := rfl
@[simp] theorem State.lineWrite_bitIdx (s : State) (v : Bool) :
    (s.lineWrite v).bitIdx = s.bitIdx := rfl
@[simp] theorem State.lineWrite_preCnt (s : State) (v : Bool) :
    (s.lineWrite v).preCnt = s.preCnt := rfl
@[simp] theorem State.lineWrite_stopCnt (s : State) (v : Bool) :
    (s.lineWrite v).stopCnt = s.stopCnt := rfl
@[simp] theorem State.lineWrite_frameBase (s : State) (v : Bool) :
    (s.lineWrite v).frameBase = s.frameBase := rfl
@[simp] theorem State.lineWrite_frameLen (s : State) (v : Bool) :
    (s.lineWrite v).frameLen = s.frameLen := rfl
@[simp] theorem State.lineWrite_buf (s : State) (v : Bool) :
    (s.lineWrite v).buf = s.buf := rfl
@[simp] theorem State.lineWrite_refused (s : State) (v : Bool) :
    (s.lineWrite v).refused = s.refused := rfl
@[simp] theorem State.lineWrite_stream (s : State) (v : Bool) :
    (s.lineWrite v).stream = s.stream := rfl
@[simp] theorem State.lineWrite_events (s : State) (v : Bool) :
    (s.lineWrite v).events = s.events ++ [Event.line v] := rfl
@[simp] theorem State.lineWrite_reasons (s : State) (v : Bool) :
    (s.lineWrite v).reasons = s.reasons := rfl

/-! ### `State.refuse` -/

@[simp] theorem State.refuse_cfg (s : State) (r : Reason) :
    (s.refuse r).cfg = s.cfg := rfl
@[simp] theorem State.refuse_src (s : State) (r : Reason) :
    (s.refuse r).src = s.src := rfl
@[simp] theorem State.refuse_dst (s : State) (r : Reason) :
    (s.refuse r).dst = s.dst := rfl
@[simp] theorem State.refuse_len (s : State) (r : Reason) :
    (s.refuse r).len = s.len := rfl
@[simp] theorem State.refuse_status (s : State) (r : Reason) :
    (s.refuse r).status = s.status := rfl
@[simp] theorem State.refuse_phase (s : State) (r : Reason) :
    (s.refuse r).phase = s.phase := rfl
@[simp] theorem State.refuse_done (s : State) (r : Reason) :
    (s.refuse r).done = s.done := rfl
@[simp] theorem State.refuse_line (s : State) (r : Reason) :
    (s.refuse r).line = s.line := rfl
@[simp] theorem State.refuse_byteIdx (s : State) (r : Reason) :
    (s.refuse r).byteIdx = s.byteIdx := rfl
@[simp] theorem State.refuse_bitIdx (s : State) (r : Reason) :
    (s.refuse r).bitIdx = s.bitIdx := rfl
@[simp] theorem State.refuse_preCnt (s : State) (r : Reason) :
    (s.refuse r).preCnt = s.preCnt := rfl
@[simp] theorem State.refuse_stopCnt (s : State) (r : Reason) :
    (s.refuse r).stopCnt = s.stopCnt := rfl
@[simp] theorem State.refuse_frameBase (s : State) (r : Reason) :
    (s.refuse r).frameBase = s.frameBase := rfl
@[simp] theorem State.refuse_frameLen (s : State) (r : Reason) :
    (s.refuse r).frameLen = s.frameLen := rfl
@[simp] theorem State.refuse_buf (s : State) (r : Reason) :
    (s.refuse r).buf = s.buf := rfl
@[simp] theorem State.refuse_refused (s : State) (r : Reason) :
    (s.refuse r).refused = true := rfl
@[simp] theorem State.refuse_stream (s : State) (r : Reason) :
    (s.refuse r).stream = s.stream := rfl
@[simp] theorem State.refuse_events (s : State) (r : Reason) :
    (s.refuse r).events = s.events := rfl
@[simp] theorem State.refuse_reasons (s : State) (r : Reason) :
    (s.refuse r).reasons = s.reasons ++ [r] := rfl

/-! ### `State.setStatus` -/

@[simp] theorem State.setStatus_cfg (s : State) (st : Status) :
    (s.setStatus st).cfg = s.cfg := rfl
@[simp] theorem State.setStatus_src (s : State) (st : Status) :
    (s.setStatus st).src = s.src := rfl
@[simp] theorem State.setStatus_dst (s : State) (st : Status) :
    (s.setStatus st).dst = s.dst := rfl
@[simp] theorem State.setStatus_len (s : State) (st : Status) :
    (s.setStatus st).len = s.len := rfl
@[simp] theorem State.setStatus_status (s : State) (st : Status) :
    (s.setStatus st).status = st := rfl
@[simp] theorem State.setStatus_phase (s : State) (st : Status) :
    (s.setStatus st).phase = s.phase := rfl
@[simp] theorem State.setStatus_done (s : State) (st : Status) :
    (s.setStatus st).done = s.done := rfl
@[simp] theorem State.setStatus_line (s : State) (st : Status) :
    (s.setStatus st).line = s.line := rfl
@[simp] theorem State.setStatus_byteIdx (s : State) (st : Status) :
    (s.setStatus st).byteIdx = s.byteIdx := rfl
@[simp] theorem State.setStatus_bitIdx (s : State) (st : Status) :
    (s.setStatus st).bitIdx = s.bitIdx := rfl
@[simp] theorem State.setStatus_preCnt (s : State) (st : Status) :
    (s.setStatus st).preCnt = s.preCnt := rfl
@[simp] theorem State.setStatus_stopCnt (s : State) (st : Status) :
    (s.setStatus st).stopCnt = s.stopCnt := rfl
@[simp] theorem State.setStatus_frameBase (s : State) (st : Status) :
    (s.setStatus st).frameBase = s.frameBase := rfl
@[simp] theorem State.setStatus_frameLen (s : State) (st : Status) :
    (s.setStatus st).frameLen = s.frameLen := rfl
@[simp] theorem State.setStatus_buf (s : State) (st : Status) :
    (s.setStatus st).buf = s.buf := rfl
@[simp] theorem State.setStatus_refused (s : State) (st : Status) :
    (s.setStatus st).refused = s.refused := rfl
@[simp] theorem State.setStatus_stream (s : State) (st : Status) :
    (s.setStatus st).stream = s.stream := rfl
@[simp] theorem State.setStatus_events (s : State) (st : Status) :
    (s.setStatus st).events = s.events := rfl
@[simp] theorem State.setStatus_reasons (s : State) (st : Status) :
    (s.setStatus st).reasons = s.reasons := rfl

/-! ### `State.storeBytes` -/

@[simp] theorem State.storeBytes_cfg (s : State) (a : Nat) (xs : List Byte) :
    (s.storeBytes a xs).cfg = s.cfg := rfl
@[simp] theorem State.storeBytes_src (s : State) (a : Nat) (xs : List Byte) :
    (s.storeBytes a xs).src = s.src := rfl
@[simp] theorem State.storeBytes_dst (s : State) (a : Nat) (xs : List Byte) :
    (s.storeBytes a xs).dst = s.dst := rfl
@[simp] theorem State.storeBytes_len (s : State) (a : Nat) (xs : List Byte) :
    (s.storeBytes a xs).len = s.len := rfl
@[simp] theorem State.storeBytes_status (s : State) (a : Nat) (xs : List Byte) :
    (s.storeBytes a xs).status = s.status := rfl
@[simp] theorem State.storeBytes_phase (s : State) (a : Nat) (xs : List Byte) :
    (s.storeBytes a xs).phase = s.phase := rfl
@[simp] theorem State.storeBytes_done (s : State) (a : Nat) (xs : List Byte) :
    (s.storeBytes a xs).done = s.done := rfl
@[simp] theorem State.storeBytes_line (s : State) (a : Nat) (xs : List Byte) :
    (s.storeBytes a xs).line = s.line := rfl
@[simp] theorem State.storeBytes_byteIdx (s : State) (a : Nat) (xs : List Byte) :
    (s.storeBytes a xs).byteIdx = s.byteIdx := rfl
@[simp] theorem State.storeBytes_bitIdx (s : State) (a : Nat) (xs : List Byte) :
    (s.storeBytes a xs).bitIdx = s.bitIdx := rfl
@[simp] theorem State.storeBytes_preCnt (s : State) (a : Nat) (xs : List Byte) :
    (s.storeBytes a xs).preCnt = s.preCnt := rfl
@[simp] theorem State.storeBytes_stopCnt (s : State) (a : Nat) (xs : List Byte) :
    (s.storeBytes a xs).stopCnt = s.stopCnt := rfl
@[simp] theorem State.storeBytes_frameBase (s : State) (a : Nat) (xs : List Byte) :
    (s.storeBytes a xs).frameBase = s.frameBase := rfl
@[simp] theorem State.storeBytes_frameLen (s : State) (a : Nat) (xs : List Byte) :
    (s.storeBytes a xs).frameLen = s.frameLen := rfl
@[simp] theorem State.storeBytes_buf (s : State) (a : Nat) (xs : List Byte) :
    (s.storeBytes a xs).buf = s.buf.writeBytes a xs := rfl
@[simp] theorem State.storeBytes_refused (s : State) (a : Nat) (xs : List Byte) :
    (s.storeBytes a xs).refused = s.refused := rfl
@[simp] theorem State.storeBytes_stream (s : State) (a : Nat) (xs : List Byte) :
    (s.storeBytes a xs).stream = s.stream := rfl
@[simp] theorem State.storeBytes_events (s : State) (a : Nat) (xs : List Byte) :
    (s.storeBytes a xs).events = s.events := rfl
@[simp] theorem State.storeBytes_reasons (s : State) (a : Nat) (xs : List Byte) :
    (s.storeBytes a xs).reasons = s.reasons := rfl

end Sys2Proof.Machine
end

