-- ==== Sys2Proof/Laws/Memory.lean ====
section
/-! SUPPORT. The laws of the buffer memory: a read after a write, the canonical form, and what a run of bytes
written leaves alone. -/

namespace Sys2Proof.Machine

@[simp] theorem Memory.lookup_nil (a : Nat) : Memory.lookup [] a = none := rfl

theorem Memory.lookup_cons (c : Host.Cell) (m : Memory) (a : Nat) :
    Memory.lookup (c :: m) a = if c.1 = a then some c.2 else Memory.lookup m a := rfl

theorem Memory.wf_cons (c : Host.Cell) (m : Memory) :
    Memory.wf (c :: m) = true ↔ (∀ d ∈ m, c.1 < d.1) ∧ Memory.wf m = true := by
  simp [Memory.wf, List.all_eq_true]

theorem Memory.within_iff (size : Nat) (m : Memory) :
    Memory.within size m = true ↔ ∀ c ∈ m, c.1 < size := by
  simp [Memory.within, List.all_eq_true]

/-- A write is read back at its address and nowhere else. -/
theorem Memory.lookup_writeByte (m : Memory) (hm : Memory.wf m = true) (a b : Nat) (v : Byte) :
    (m.writeByte a v).lookup b = if b = a then some v else m.lookup b := by
  induction m with
  | nil => simp [Memory.writeByte, Memory.lookup_cons, eq_comm]
  | cons c rest ih =>
    obtain ⟨hlt, hwf⟩ := (Memory.wf_cons c rest).mp hm
    unfold Memory.writeByte
    split
    · simp only [Memory.lookup_cons]
      by_cases hb : b = a
      · simp [hb]
      · simp [hb, Ne.symm hb]
    · split
      · simp only [Memory.lookup_cons]
        grind
      · rw [Memory.lookup_cons, ih hwf, Memory.lookup_cons]
        grind

theorem Memory.mem_writeByte (m : Memory) (a : Nat) (v : Byte) (c : Host.Cell)
    (h : c ∈ m.writeByte a v) : c = (a, v) ∨ c ∈ m := by
  induction m with
  | nil => simpa [Memory.writeByte] using h
  | cons d rest ih =>
    unfold Memory.writeByte at h
    split at h
    · simpa using h
    · split at h
      · grind
      · grind

/-- A write keeps the canonical form. -/
theorem Memory.wf_writeByte (m : Memory) (hm : Memory.wf m = true) (a : Nat) (v : Byte) :
    Memory.wf (m.writeByte a v) = true := by
  induction m with
  | nil => rfl
  | cons c rest ih =>
    obtain ⟨hlt, hwf⟩ := (Memory.wf_cons c rest).mp hm
    unfold Memory.writeByte
    split
    · rename_i hac
      refine (Memory.wf_cons _ _).mpr ⟨fun d hd => ?_, hm⟩
      rcases List.mem_cons.mp hd with rfl | hd
      · exact hac
      · exact Nat.lt_trans hac (hlt d hd)
    · split
      · rename_i _ hac
        exact (Memory.wf_cons _ _).mpr ⟨fun d hd => hac ▸ hlt d hd, hwf⟩
      · rename_i h1 h2
        refine (Memory.wf_cons _ _).mpr ⟨fun d hd => ?_, ih hwf⟩
        rcases Memory.mem_writeByte rest a v d hd with rfl | hd
        · show c.1 < a
          omega
        · exact hlt d hd

theorem Memory.within_writeByte (size : Nat) (m : Memory) (hm : Memory.within size m = true)
    (a : Nat) (v : Byte) (ha : a < size) : Memory.within size (m.writeByte a v) = true := by
  rw [Memory.within_iff] at *
  intro c hc
  rcases Memory.mem_writeByte m a v c hc with rfl | hc
  · exact ha
  · exact hm c hc

/-- Two canonical memories that hold the same bytes at the same addresses are the same list. -/
theorem Memory.ext_of_lookup (m n : Memory) (hm : Memory.wf m = true) (hn : Memory.wf n = true)
    (h : ∀ a, m.lookup a = n.lookup a) : m = n := by
  have absent : ∀ (l : Memory) (a : Nat), (∀ d ∈ l, a < d.1) → l.lookup a = none := by
    intro l a hl
    induction l with
    | nil => rfl
    | cons d l ih =>
      have hd := hl d (by simp)
      rw [Memory.lookup_cons, if_neg (by omega)]
      exact ih fun e he => hl e (by simp [he])
  induction m generalizing n with
  | nil =>
    cases n with
    | nil => rfl
    | cons d n => simpa [Memory.lookup_cons] using h d.1
  | cons c m ih =>
    cases n with
    | nil => simpa [Memory.lookup_cons] using h c.1
    | cons d n =>
      obtain ⟨hcm, hm'⟩ := (Memory.wf_cons c m).mp hm
      obtain ⟨hdn, hn'⟩ := (Memory.wf_cons d n).mp hn
      have hcd : c.1 = d.1 := by
        rcases Nat.lt_trichotomy c.1 d.1 with hlt | heq | hgt
        · have := h c.1
          rw [Memory.lookup_cons, if_pos rfl, absent (d :: n) c.1 (by
            intro e he
            rcases List.mem_cons.mp he with rfl | he
            · exact hlt
            · exact Nat.lt_trans hlt (hdn e he))] at this
          cases this
        · exact heq
        · have := h d.1
          rw [Memory.lookup_cons d, if_pos rfl, absent (c :: m) d.1 (by
            intro e he
            rcases List.mem_cons.mp he with rfl | he
            · exact hgt
            · exact Nat.lt_trans hgt (hcm e he))] at this
          cases this
      have hv : c.2 = d.2 := by
        have := h c.1
        rwa [Memory.lookup_cons, if_pos rfl, Memory.lookup_cons, if_pos hcd.symm, Option.some.injEq] at this
      have hrest : m = n := by
        refine ih n hm' hn' fun a => ?_
        by_cases ha : c.1 = a
        · rw [absent m a (fun e he => ha ▸ hcm e he), absent n a (fun e he => ha ▸ hcd ▸ hdn e he)]
        · have := h a
          rwa [Memory.lookup_cons, if_neg ha, Memory.lookup_cons, if_neg (hcd ▸ ha)] at this
      rw [hrest, Prod.ext hcd hv]

@[simp] theorem Memory.writeBytes_nil (m : Memory) (a : Nat) : m.writeBytes a [] = m := rfl

theorem Memory.writeBytes_cons (m : Memory) (a : Nat) (x : Byte) (xs : List Byte) :
    m.writeBytes a (x :: xs) = (m.writeByte a x).writeBytes (a + 1) xs := rfl

/-- Writing a run of bytes keeps the canonical form. -/
theorem Memory.wf_writeBytes (m : Memory) (hm : Memory.wf m = true) (a : Nat) (xs : List Byte) :
    Memory.wf (m.writeBytes a xs) = true := by
  induction xs generalizing m a with
  | nil => exact hm
  | cons x xs ih => exact ih _ (Memory.wf_writeByte m hm a x) _

theorem Memory.within_writeBytes (size : Nat) (m : Memory) (hm : Memory.within size m = true)
    (a : Nat) (xs : List Byte) (h : a + xs.length ≤ size) :
    Memory.within size (m.writeBytes a xs) = true := by
  induction xs generalizing m a with
  | nil => exact hm
  | cons x xs ih =>
    rw [List.length_cons] at h
    exact ih _ (Memory.within_writeByte size m hm a x (by omega)) _ (by omega)

/-- Each written byte is read back at its address, and every other address holds what it held. -/
theorem Memory.lookup_writeBytes (m : Memory) (hm : Memory.wf m = true) (a b : Nat)
    (xs : List Byte) :
    (m.writeBytes a xs).lookup b =
      if a ≤ b ∧ b < a + xs.length then xs[b - a]? else m.lookup b := by
  induction xs generalizing m a with
  | nil => simp
  | cons x xs ih =>
    rw [Memory.writeBytes_cons, ih _ (Memory.wf_writeByte m hm a x), Memory.lookup_writeByte m hm]
    by_cases hab : b = a
    · subst hab
      simp
    · by_cases hin : a + 1 ≤ b ∧ b < a + 1 + xs.length
      · have hb : b - a = (b - (a + 1)) + 1 := by omega
        rw [if_pos hin, if_pos (by simp only [List.length_cons]; omega), hb, List.getElem?_cons_succ]
      · rw [if_neg hin, if_neg hab, if_neg (by simp only [List.length_cons]; omega)]

/-- A byte outside the written run reads as before. -/
theorem Memory.readByte_writeBytes_outside (m : Memory) (hm : Memory.wf m = true) (a b : Nat)
    (xs : List Byte) (h : b < a ∨ a + xs.length ≤ b) :
    (m.writeBytes a xs).readByte b = m.readByte b := by
  rw [Memory.readByte, Memory.lookup_writeBytes m hm, if_neg (by omega), Memory.readByte]

/-- A byte inside the written run reads as written. -/
theorem Memory.readByte_writeBytes_inside (m : Memory) (hm : Memory.wf m = true) (a i : Nat)
    (xs : List Byte) (h : i < xs.length) :
    (m.writeBytes a xs).readByte (a + i) = xs[i] := by
  rw [Memory.readByte, Memory.lookup_writeBytes m hm, if_pos (by omega)]
  simp [h]

@[simp] theorem Memory.length_readBytes (m : Memory) (a n : Nat) :
    (m.readBytes a n).length = n := by simp [Memory.readBytes]

theorem Memory.getElem_readBytes (m : Memory) (a n i : Nat) (h : i < (m.readBytes a n).length) :
    (m.readBytes a n)[i] = m.readByte (a + i) := by simp [Memory.readBytes]

/-- Two memories that agree on a region give the same bytes for it. -/
theorem Memory.readBytes_congr (m n : Memory) (a k : Nat)
    (h : ∀ i < k, m.readByte (a + i) = n.readByte (a + i)) : m.readBytes a k = n.readBytes a k := by
  simp only [Memory.readBytes]
  exact List.map_congr_left fun i hi => h i (List.mem_range.mp hi)

/-- Reading back exactly the bytes that were written. -/
theorem Memory.readBytes_writeBytes (m : Memory) (hm : Memory.wf m = true) (a : Nat)
    (xs : List Byte) : (m.writeBytes a xs).readBytes a xs.length = xs := by
  apply List.ext_getElem
  · simp
  · intro i h1 h2
    rw [Memory.getElem_readBytes, Memory.readByte_writeBytes_inside m hm a i xs h2]

/-- A region that does not meet the written run reads as before. -/
theorem Memory.readBytes_writeBytes_disjoint (m : Memory) (hm : Memory.wf m = true)
    (a b n : Nat) (xs : List Byte) (h : overlap a xs.length b n = false) :
    (m.writeBytes a xs).readBytes b n = m.readBytes b n := by
  refine Memory.readBytes_congr _ _ _ _ fun i hi => ?_
  by_cases hx : xs = []
  · simp [hx]
  · have hpos : 0 < xs.length := List.length_pos_iff.mpr hx
    refine Memory.readByte_writeBytes_outside m hm a (b + i) xs ?_
    simp only [overlap, Bool.and_eq_false_iff, decide_eq_false_iff_not] at h
    omega

end Sys2Proof.Machine
end

