-- ==== Sys2Proof/Laws/Codec.lean ====
section
/-! SUPPORT. The laws of regions, of the codec functions on bytes and chunks, and of the shape ENCODE and DECODE share. -/

namespace Sys2Proof.Machine

/-! ### Regions -/

theorem regionInRange_iff (size a n : Nat) : regionInRange size a n = true ↔ a + n ≤ size := by
  simp [regionInRange]

theorem overlap_iff (a n b m : Nat) :
    overlap a n b m = true ↔ 0 < n ∧ 0 < m ∧ a < b + m ∧ b < a + n := by
  simp [overlap, and_assoc]

theorem State.borrowViolated_iff (s : State) (a n : Nat) :
    s.borrowViolated a n = true ↔
      s.phase ≠ .idle ∧ 0 < n ∧ 0 < s.frameLen.toNat ∧
        a < s.frameBase.toNat + s.frameLen.toNat ∧ s.frameBase.toNat < a + n := by
  simp [State.borrowViolated, overlap_iff]

/-! ### Bytes and chunks -/

/-- The decoder takes back what the encoder made, under the same standard (R97, R101). -/
theorem dec16_enc8 (std : Standard) (b : Byte) : dec16 std (enc8 std b) = some b := by
  cases std <;> revert b <;> decide

@[simp] theorem length_chunkBytes (c : BitVec 16) : (chunkBytes c).length = 2 := rfl

/-- A chunk is made of its two bytes (R53). -/
theorem append_chunkBytes (c : BitVec 16) : c.extractLsb' 8 8 ++ c.extractLsb' 0 8 = c := by
  apply BitVec.eq_of_getLsbD_eq
  intro k hk
  simp only [BitVec.getLsbD_append, BitVec.getLsbD_extractLsb']
  grind

@[simp] theorem encodeBytes_nil (std : Standard) : encodeBytes std [] = [] := rfl

theorem encodeBytes_cons (std : Standard) (b : Byte) (p : List Byte) :
    encodeBytes std (b :: p) =
      (enc8 std b).extractLsb' 8 8 :: (enc8 std b).extractLsb' 0 8 :: encodeBytes std p := rfl

@[simp] theorem length_encodeBytes (std : Standard) (p : List Byte) :
    (encodeBytes std p).length = 2 * p.length := by
  induction p with
  | nil => rfl
  | cons b p ih =>
    rw [encodeBytes_cons]
    simp only [List.length_cons, ih]
    omega

/-- The two bytes of the chunk of payload byte `k` (R53, R103). -/
theorem getElem?_encodeBytes (std : Standard) (p : List Byte) (k : Nat) :
    (encodeBytes std p)[2 * k]? = p[k]?.map (fun b => (enc8 std b).extractLsb' 8 8) ∧
    (encodeBytes std p)[2 * k + 1]? = p[k]?.map (fun b => (enc8 std b).extractLsb' 0 8) := by
  induction p generalizing k with
  | nil => simp
  | cons b p ih =>
    rw [encodeBytes_cons]
    cases k with
    | zero => simp
    | succ k =>
      have h1 : 2 * (k + 1) = 2 * k + 1 + 1 := by omega
      rw [h1]
      simpa using ih k

/-! ### Sequences -/

theorem decodeChunks_cons_cons (std : Standard) (hi lo : Byte) (e : List Byte) :
    decodeChunks std (hi :: lo :: e) =
      match dec16 std (hi ++ lo) with
      | none => none
      | some b => (decodeChunks std e).map (b :: ·) := rfl

/-- A decoded sequence is half as long, rounded down (R104). -/
theorem length_decodeChunks (std : Standard) (e out : List Byte) (h : decodeChunks std e = some out) :
    out.length = e.length / 2 := by
  induction e using decodeChunks.induct (std := std) generalizing out with
  | case1 hi lo rest hnone => rw [decodeChunks_cons_cons, hnone] at h; cases h
  | case2 hi lo rest b hsome ih =>
    rw [decodeChunks_cons_cons, hsome] at h
    obtain ⟨tl, htl, rfl⟩ := Option.map_eq_some_iff.mp h
    have := ih tl htl
    simp only [List.length_cons] at *
    omega
  | case3 e hshort =>
    match e, hshort with
    | [], _ => cases h; rfl
    | [x], _ => cases h; simp
    | hi :: lo :: rest, hshort => exact absurd rfl (hshort hi lo rest)

theorem Standard.ofCode_some (std : BitVec 2) (st : Standard) :
    Standard.ofCode std = some st ↔
      std = 0b00#2 ∧ st = .ieee ∨ std = 0b01#2 ∧ st = .thomas := by
  revert std; cases st <;> decide

theorem Standard.ofCode_none (std : BitVec 2) :
    Standard.ofCode std = none ↔ std = 0b10#2 ∨ std = 0b11#2 := by
  revert std; decide

/-! ### The shape of ENCODE and DECODE -/

section Command

variable (s : State) (outLen : Nat) (result : List Byte → Status × List Byte)

/-- R110: a region past the end of BUF is refused first. -/
theorem State.codecCommand_outOfRange
    (h : ¬ (s.srcAddr + s.lenBytes ≤ s.cfg.memSize ∧ s.dstAddr + outLen ≤ s.cfg.memSize)) :
    s.codecCommand outLen result = s.refuse .regionOutOfRange := by
  unfold State.codecCommand
  rw [if_pos]
  simp only [regionInRange, Bool.not_eq_true', Bool.and_eq_false_iff, decide_eq_false_iff_not]
  exact not_and_or.mp h

/-- R110: overlapping regions are refused next. -/
theorem State.codecCommand_overlap
    (h : s.srcAddr + s.lenBytes ≤ s.cfg.memSize ∧ s.dstAddr + outLen ≤ s.cfg.memSize)
    (ho : overlap s.srcAddr s.lenBytes s.dstAddr outLen = true) :
    s.codecCommand outLen result = s.refuse .regionOverlap := by
  unfold State.codecCommand
  rw [if_neg (by simp [regionInRange, h.1, h.2]), if_pos ho]

/-- R154: a status other than OK is all the command leaves. -/
theorem State.codecCommand_error
    (h : s.srcAddr + s.lenBytes ≤ s.cfg.memSize ∧ s.dstAddr + outLen ≤ s.cfg.memSize)
    (ho : overlap s.srcAddr s.lenBytes s.dstAddr outLen = false)
    (st : Status) (out : List Byte) (hst : st ≠ .ok)
    (hr : result (s.buf.readBytes s.srcAddr s.lenBytes) = (st, out)) :
    s.codecCommand outLen result = s.setStatus st := by
  unfold State.codecCommand
  rw [if_neg (by simp [regionInRange, h.1, h.2]), if_neg (by simp [ho]), hr]
  cases st <;> first | rfl | exact absurd rfl hst

/-- R63: an OK result that would go into the active frame is refused. -/
theorem State.codecCommand_borrow
    (h : s.srcAddr + s.lenBytes ≤ s.cfg.memSize ∧ s.dstAddr + outLen ≤ s.cfg.memSize)
    (ho : overlap s.srcAddr s.lenBytes s.dstAddr outLen = false) (out : List Byte)
    (hr : result (s.buf.readBytes s.srcAddr s.lenBytes) = (.ok, out))
    (hb : s.borrowViolated s.dstAddr outLen = true) :
    s.codecCommand outLen result = s.refuse .borrowViolation := by
  unfold State.codecCommand
  rw [if_neg (by simp [regionInRange, h.1, h.2]), if_neg (by simp [ho]), hr]
  simp [hb]

/-- R108, R109: an OK result is written. -/
theorem State.codecCommand_ok
    (h : s.srcAddr + s.lenBytes ≤ s.cfg.memSize ∧ s.dstAddr + outLen ≤ s.cfg.memSize)
    (ho : overlap s.srcAddr s.lenBytes s.dstAddr outLen = false) (out : List Byte)
    (hr : result (s.buf.readBytes s.srcAddr s.lenBytes) = (.ok, out))
    (hb : s.borrowViolated s.dstAddr outLen = false) :
    s.codecCommand outLen result = (s.storeBytes s.dstAddr out).setStatus .ok := by
  unfold State.codecCommand
  rw [if_neg (by simp [regionInRange, h.1, h.2]), if_neg (by simp [ho]), hr]
  simp [hb]

/-- Everything a codec command can do: refuse, write a status other than OK, or write its result with OK. -/
theorem State.codecCommand_cases :
    (∃ r, (r = .regionOutOfRange ∨ r = .regionOverlap ∨ r = .borrowViolation) ∧
      s.codecCommand outLen result = s.refuse r) ∨
    (∃ st out, st ≠ .ok ∧ result (s.buf.readBytes s.srcAddr s.lenBytes) = (st, out) ∧
      s.codecCommand outLen result = s.setStatus st) ∨
    (∃ out, result (s.buf.readBytes s.srcAddr s.lenBytes) = (.ok, out) ∧
      s.dstAddr + outLen ≤ s.cfg.memSize ∧ s.borrowViolated s.dstAddr outLen = false ∧
      s.codecCommand outLen result = (s.storeBytes s.dstAddr out).setStatus .ok) := by
  by_cases h : s.srcAddr + s.lenBytes ≤ s.cfg.memSize ∧ s.dstAddr + outLen ≤ s.cfg.memSize
  · cases ho : overlap s.srcAddr s.lenBytes s.dstAddr outLen
    · rcases hr : result (s.buf.readBytes s.srcAddr s.lenBytes) with ⟨st, out⟩
      by_cases hst : st = .ok
      · subst hst
        cases hb : s.borrowViolated s.dstAddr outLen
        · exact .inr (.inr ⟨out, rfl, h.2, rfl, s.codecCommand_ok outLen result h ho out hr hb⟩)
        · exact .inl ⟨_, .inr (.inr rfl), s.codecCommand_borrow outLen result h ho out hr hb⟩
      · exact .inr (.inl ⟨st, out, hst, rfl, s.codecCommand_error outLen result h ho st out hst hr⟩)
    · exact .inl ⟨_, .inr (.inl rfl), s.codecCommand_overlap outLen result h ho⟩
  · exact .inl ⟨_, .inl rfl, s.codecCommand_outOfRange outLen result h⟩

end Command

/-- An encoded result has the length of its destination region (R103, R108). -/
theorem length_encodeSeq (p out : List Byte) (std : BitVec 2) (h : encodeSeq p std = (.ok, out)) :
    out.length = 2 * p.length := by
  unfold encodeSeq at h
  split at h
  · cases h
  · cases h
    exact length_encodeBytes _ p

/-- A decoded result has the length of its destination region (R104, R109). -/
theorem length_decodeSeq (e out : List Byte) (std : BitVec 2) (h : decodeSeq e std = (.ok, out)) :
    out.length = e.length / 2 := by
  unfold decodeSeq at h
  split at h
  · cases h
  · split at h
    · cases h
    · split at h
      · cases h
      · rename_i hout
        cases h
        exact length_decodeChunks _ e _ hout

end Sys2Proof.Machine
end

