-- ==== Sys2Proof/Laws/Config.lean ====
section
/-! SUPPORT. What a legal configuration gives: the bounds of R15 to R18, in the form the other laws use. -/

namespace Sys2Proof

/-- The counter of a Preamble tick does not wrap, because `P ≤ 65535` (R17). -/
theorem Config.preambleLen_le (c : Config) : 1 ≤ c.preambleLen ∧ c.preambleLen ≤ 65535 := by
  have := c.legal
  simp only [configInRange, Bool.and_eq_true, decide_eq_true_eq] at this
  exact ⟨this.1.1.1.2, this.1.1.2⟩

/-- The counter of a Stop tick does not wrap, because `S ≤ 65535` (R18). -/
theorem Config.stopLen_le (c : Config) : 1 ≤ c.stopLen ∧ c.stopLen ≤ 65535 := by
  have := c.legal
  simp only [configInRange, Bool.and_eq_true, decide_eq_true_eq] at this
  exact ⟨this.1.2, this.2⟩

/-- An address width of 1 to 32 bits (R15), and frames no longer than a length register can hold (R16). -/
theorem Config.aw_le (c : Config) : 1 ≤ c.aw ∧ c.aw ≤ 32 ∧ c.maxFrameLen < c.memSize := by
  have := c.legal
  simp only [configInRange, Bool.and_eq_true, decide_eq_true_eq] at this
  have hpos : 0 < 2 ^ c.aw := Nat.two_pow_pos _
  exact ⟨this.1.1.1.1.1.1, this.1.1.1.1.1.2, by unfold Config.memSize; omega⟩

theorem Config.memSize_le (c : Config) : c.memSize ≤ 2 ^ 32 :=
  Nat.pow_le_pow_right (by omega) c.aw_le.2.1

end Sys2Proof
end

