-- ==== Sys2Proof/Laws/Decode.lean ====
section
/-! SUPPORT. The fields of the word layouts: each field of an encoded word is what was put into it, and a word is made of
its fields. -/

namespace Sys2Proof

/-! ### REG_WRITE (R79) -/

@[simp] theorem kindField_regWriteWord (r : BitVec 4) (d : Word) :
    kindField (regWriteWord r d) = 0x0#4 := by
  apply BitVec.eq_of_getLsbD_eq
  intro i hi
  simp only [kindField, regWriteWord, BitVec.getLsbD_extractLsb', BitVec.getLsbD_append]
  interval_cases i <;> simp

@[simp] theorem regZeroField_regWriteWord (r : BitVec 4) (d : Word) :
    regZeroField (regWriteWord r d) = 0#24 := by
  apply BitVec.eq_of_getLsbD_eq
  intro i hi
  simp only [regZeroField, regWriteWord, BitVec.getLsbD_extractLsb', BitVec.getLsbD_append]
  interval_cases i <;> simp

@[simp] theorem regField_regWriteWord (r : BitVec 4) (d : Word) :
    regField (regWriteWord r d) = r := by
  apply BitVec.eq_of_getLsbD_eq
  intro i hi
  simp only [regField, regWriteWord, BitVec.getLsbD_extractLsb', BitVec.getLsbD_append]
  interval_cases i <;> simp

@[simp] theorem dataField_regWriteWord (r : BitVec 4) (d : Word) :
    dataField (regWriteWord r d) = d := by
  apply BitVec.eq_of_getLsbD_eq
  intro i hi
  simp only [dataField, regWriteWord, BitVec.getLsbD_extractLsb', BitVec.getLsbD_append]
  simp [hi]

/-! ### REG_READ (R80) -/

@[simp] theorem kindField_regReadWord (r : BitVec 4) : kindField (regReadWord r) = 0x1#4 := by
  apply BitVec.eq_of_getLsbD_eq
  intro i hi
  simp only [kindField, regReadWord, BitVec.getLsbD_extractLsb', BitVec.getLsbD_append]
  interval_cases i <;> simp

@[simp] theorem regZeroField_regReadWord (r : BitVec 4) :
    regZeroField (regReadWord r) = 0#24 := by
  apply BitVec.eq_of_getLsbD_eq
  intro i hi
  simp only [regZeroField, regReadWord, BitVec.getLsbD_extractLsb', BitVec.getLsbD_append]
  interval_cases i <;> simp

@[simp] theorem regField_regReadWord (r : BitVec 4) : regField (regReadWord r) = r := by
  apply BitVec.eq_of_getLsbD_eq
  intro i hi
  simp only [regField, regReadWord, BitVec.getLsbD_extractLsb', BitVec.getLsbD_append]
  interval_cases i <;> simp

@[simp] theorem dataField_regReadWord (r : BitVec 4) : dataField (regReadWord r) = 0#32 := by
  apply BitVec.eq_of_getLsbD_eq
  intro i hi
  simp only [dataField, regReadWord, BitVec.getLsbD_extractLsb', BitVec.getLsbD_append]
  simp [hi]

/-! ### MEM_WRITE (R81) -/

@[simp] theorem kindField_memWriteWord (a : Word) (x : Byte) :
    kindField (memWriteWord a x) = 0x2#4 := by
  apply BitVec.eq_of_getLsbD_eq
  intro i hi
  simp only [kindField, memWriteWord, BitVec.getLsbD_extractLsb', BitVec.getLsbD_append]
  interval_cases i <;> simp

@[simp] theorem memZeroField_memWriteWord (a : Word) (x : Byte) :
    memZeroField (memWriteWord a x) = 0#20 := by
  apply BitVec.eq_of_getLsbD_eq
  intro i hi
  simp only [memZeroField, memWriteWord, BitVec.getLsbD_extractLsb', BitVec.getLsbD_append]
  interval_cases i <;> simp

@[simp] theorem addrField_memWriteWord (a : Word) (x : Byte) :
    addrField (memWriteWord a x) = a := by
  apply BitVec.eq_of_getLsbD_eq
  intro i hi
  simp only [addrField, memWriteWord, BitVec.getLsbD_extractLsb', BitVec.getLsbD_append]
  interval_cases i <;> simp

@[simp] theorem byteField_memWriteWord (a : Word) (x : Byte) :
    byteField (memWriteWord a x) = x := by
  apply BitVec.eq_of_getLsbD_eq
  intro i hi
  simp only [byteField, memWriteWord, BitVec.getLsbD_extractLsb', BitVec.getLsbD_append]
  simp [hi]

/-! ### MEM_READ (R82) -/

@[simp] theorem kindField_memReadWord (a : Word) : kindField (memReadWord a) = 0x3#4 := by
  apply BitVec.eq_of_getLsbD_eq
  intro i hi
  simp only [kindField, memReadWord, BitVec.getLsbD_extractLsb', BitVec.getLsbD_append]
  interval_cases i <;> simp

@[simp] theorem memZeroField_memReadWord (a : Word) : memZeroField (memReadWord a) = 0#20 := by
  apply BitVec.eq_of_getLsbD_eq
  intro i hi
  simp only [memZeroField, memReadWord, BitVec.getLsbD_extractLsb', BitVec.getLsbD_append]
  interval_cases i <;> simp

@[simp] theorem addrField_memReadWord (a : Word) : addrField (memReadWord a) = a := by
  apply BitVec.eq_of_getLsbD_eq
  intro i hi
  simp only [addrField, memReadWord, BitVec.getLsbD_extractLsb', BitVec.getLsbD_append]
  interval_cases i <;> simp

@[simp] theorem byteField_memReadWord (a : Word) : byteField (memReadWord a) = 0#8 := by
  apply BitVec.eq_of_getLsbD_eq
  intro i hi
  simp only [byteField, memReadWord, BitVec.getLsbD_extractLsb', BitVec.getLsbD_append]
  simp [hi]

/-! ### The CMD word (R84) -/

@[simp] theorem opField_cmdWord (std : BitVec 2) (op : BitVec 3) :
    opField (cmdWord std op) = op := by
  revert std op; decide

@[simp] theorem stdField_cmdWord (std : BitVec 2) (op : BitVec 3) :
    stdField (cmdWord std op) = std := by
  revert std op; decide

/-! ### A word is made of its fields -/

theorem regWriteWord_of_fields (w : TxnWord) (hk : kindField w = 0x0#4) (hz : regZeroField w = 0#24) :
    regWriteWord (regField w) (dataField w) = w := by
  have h1 := fun i : Nat => congrArg (fun v => v.getLsbD i) hk
  have h2 := fun i : Nat => congrArg (fun v => v.getLsbD i) hz
  simp only [kindField, regZeroField, BitVec.getLsbD_extractLsb', BitVec.getLsbD_zero] at h1 h2
  apply BitVec.eq_of_getLsbD_eq
  intro i hi
  simp only [regWriteWord, regField, dataField, BitVec.getLsbD_append, BitVec.getLsbD_extractLsb']
  have h1 := h1 (i - 60)
  have h2 := h2 (i - 36)
  grind

theorem regReadWord_of_fields (w : TxnWord) (hk : kindField w = 0x1#4) (hz : regZeroField w = 0#24)
    (hd : dataField w = 0#32) : regReadWord (regField w) = w := by
  have h1 := fun i : Nat => congrArg (fun v => v.getLsbD i) hk
  have h2 := fun i : Nat => congrArg (fun v => v.getLsbD i) hz
  have h3 := fun i : Nat => congrArg (fun v => v.getLsbD i) hd
  simp only [kindField, regZeroField, dataField, BitVec.getLsbD_extractLsb', BitVec.getLsbD_zero] at h1 h2 h3
  apply BitVec.eq_of_getLsbD_eq
  intro i hi
  simp only [regReadWord, regField, BitVec.getLsbD_append, BitVec.getLsbD_extractLsb']
  have h1 := h1 (i - 60)
  have h2 := h2 (i - 36)
  have h3 := h3 i
  grind

theorem memWriteWord_of_fields (w : TxnWord) (hk : kindField w = 0x2#4) (hz : memZeroField w = 0#20) :
    memWriteWord (addrField w) (byteField w) = w := by
  have h1 := fun i : Nat => congrArg (fun v => v.getLsbD i) hk
  have h2 := fun i : Nat => congrArg (fun v => v.getLsbD i) hz
  simp only [kindField, memZeroField, BitVec.getLsbD_extractLsb', BitVec.getLsbD_zero] at h1 h2
  apply BitVec.eq_of_getLsbD_eq
  intro i hi
  simp only [memWriteWord, addrField, byteField, BitVec.getLsbD_append, BitVec.getLsbD_extractLsb']
  have h1 := h1 (i - 60)
  have h2 := h2 (i - 40)
  grind

theorem memReadWord_of_fields (w : TxnWord) (hk : kindField w = 0x3#4) (hz : memZeroField w = 0#20)
    (hd : byteField w = 0#8) : memReadWord (addrField w) = w := by
  have h1 := fun i : Nat => congrArg (fun v => v.getLsbD i) hk
  have h2 := fun i : Nat => congrArg (fun v => v.getLsbD i) hz
  have h3 := fun i : Nat => congrArg (fun v => v.getLsbD i) hd
  simp only [kindField, memZeroField, byteField, BitVec.getLsbD_extractLsb', BitVec.getLsbD_zero] at h1 h2 h3
  apply BitVec.eq_of_getLsbD_eq
  intro i hi
  simp only [memReadWord, addrField, BitVec.getLsbD_append, BitVec.getLsbD_extractLsb']
  have h1 := h1 (i - 60)
  have h2 := h2 (i - 40)
  have h3 := h3 i
  grind

/-! ### What the decoder reads from each layout -/

@[simp] theorem decode_regWriteWord (r : BitVec 4) (d : Word) :
    decode (regWriteWord r d) = decodeRegWrite r d := by simp [decode]

@[simp] theorem decode_regReadWord (r : BitVec 4) :
    decode (regReadWord r) = decodeRegRead r := by simp [decode]

@[simp] theorem decode_memWriteWord (a : Word) (x : Byte) :
    decode (memWriteWord a x) = .instr (.memWrite a x) := by simp [decode]

@[simp] theorem decode_memReadWord (a : Word) :
    decode (memReadWord a) = .instr (.memRead a) := by simp [decode]

@[simp] theorem decode_tickWord : decode tickWord = .instr .tick := by decide

/-- Every word the decoder reads as an operation is one of the five layouts (R78 to R83). -/
theorem decode_cases (w : TxnWord) (i : Instr) (h : decode w = .instr i) :
    (∃ r d, w = regWriteWord r d ∧ decodeRegWrite r d = .instr i) ∨
    (∃ r, w = regReadWord r ∧ decodeRegRead r = .instr i) ∨
    (∃ a x, w = memWriteWord a x ∧ i = .memWrite a x) ∨
    (∃ a, w = memReadWord a ∧ i = .memRead a) ∨
    (w = tickWord ∧ i = .tick) := by
  unfold decode at h
  split at h
  · rename_i hk
    split at h
    · cases h
    · rename_i hz
      exact .inl ⟨_, _, (regWriteWord_of_fields w hk (by simpa using hz)).symm, h⟩
  split at h
  · rename_i hk
    split at h
    · cases h
    · rename_i hz
      obtain ⟨hz, hd⟩ := not_or.mp hz
      exact .inr (.inl ⟨_, (regReadWord_of_fields w hk (by simpa using hz) (by simpa using hd)).symm, h⟩)
  split at h
  · rename_i hk
    split at h
    · cases h
    · rename_i hz
      cases h
      exact .inr (.inr (.inl ⟨_, _, (memWriteWord_of_fields w hk (by simpa using hz)).symm, rfl⟩))
  split at h
  · rename_i hk
    split at h
    · cases h
    · rename_i hz
      cases h
      obtain ⟨hz, hd⟩ := not_or.mp hz
      exact .inr (.inr (.inr (.inl ⟨_, (memReadWord_of_fields w hk (by simpa using hz) (by simpa using hd)).symm, rfl⟩)))
  split at h
  · split at h
    · rename_i hw
      cases h
      exact .inr (.inr (.inr (.inr ⟨hw, rfl⟩)))
    · cases h
  · cases h

/-- A register write stands for one of the three commands or the three operand writes (R90). -/
theorem decodeRegWrite_cases (r : BitVec 4) (d : Word) (i : Instr) (h : decodeRegWrite r d = .instr i) :
    (r = 0x0#4 ∧ (opField d = 1#3 ∧ i = .cmdEncode (stdField d) ∨
      opField d = 2#3 ∧ i = .cmdDecode (stdField d) ∨ opField d = 3#3 ∧ i = .cmdStart)) ∨
    (r = 0x1#4 ∧ i = .wrSrc d) ∨ (r = 0x2#4 ∧ i = .wrDst d) ∨ (r = 0x3#4 ∧ i = .wrLen d) := by
  unfold decodeRegWrite decodeCmd at h
  split at h
  · rename_i hr
    refine .inl ⟨hr, ?_⟩
    split at h
    · rename_i ho
      cases h
      exact .inl ⟨ho, rfl⟩
    split at h
    · rename_i ho
      cases h
      exact .inr (.inl ⟨ho, rfl⟩)
    split at h
    · rename_i ho
      cases h
      exact .inr (.inr ⟨ho, rfl⟩)
    · cases h
  split at h
  · rename_i hr
    cases h
    exact .inr (.inl ⟨hr, rfl⟩)
  split at h
  · rename_i hr
    cases h
    exact .inr (.inr (.inl ⟨hr, rfl⟩))
  split at h
  · rename_i hr
    cases h
    exact .inr (.inr (.inr ⟨hr, rfl⟩))
  · cases h

theorem decodeRegRead_ne_tick (r : BitVec 4) : decodeRegRead r ≠ .instr .tick := by
  revert r; decide

/-- Only the exact TICK word is read as a tick (R83). -/
theorem decode_eq_tick (w : TxnWord) : decode w = .instr .tick ↔ w = tickWord := by
  constructor
  · intro h
    rcases decode_cases w _ h with ⟨r, d, -, h⟩ | ⟨r, -, h⟩ | ⟨a, x, -, h⟩ | ⟨a, -, h⟩ | ⟨h, -⟩
    · exact absurd (decodeRegWrite_cases r d _ h) (by simp)
    · exact absurd h (decodeRegRead_ne_tick r)
    · cases h
    · cases h
    · exact h
  · rintro rfl
    exact decode_tickWord

/-- On the host port every operation but the tick is read as the decoder reads it (R83, R91). -/
theorem decodeHost_of_decode (w : TxnWord) (i : Instr) (h : decode w = .instr i) (hi : i ≠ .tick) :
    decodeHost w = .instr i := by
  unfold decodeHost
  rw [if_neg (by rw [h]; simpa using hi), h]

/-- No word on the host port is a tick (R83). -/
theorem decodeHost_ne_tick (w : TxnWord) : decodeHost w ≠ .instr .tick := by
  unfold decodeHost
  split
  · simp
  · assumption

/-- What the host port reads is what the decoder reads, less the tick (R83, R91). -/
theorem decodeHost_eq_instr (w : TxnWord) (i : Instr) :
    decodeHost w = .instr i ↔ decode w = .instr i ∧ i ≠ .tick := by
  constructor
  · intro h
    have hi : i ≠ .tick := fun hi => decodeHost_ne_tick w (hi ▸ h)
    unfold decodeHost at h
    split at h
    · cases h
    · exact ⟨h, hi⟩
  · rintro ⟨h, hi⟩
    exact decodeHost_of_decode w i h hi

end Sys2Proof
end

