-- ==== Sys2Proof/Laws/Framer.lean ====
section
/-! SUPPORT. What a tick and a START leave alone, and what each phase action does, said once. -/

namespace Sys2Proof.Machine

/-! ### START -/

theorem State.frameTooLarge_iff (s : State) :
    s.frameTooLarge = true ↔
      s.cfg.maxFrameLen < s.len.toNat ∨ s.cfg.memSize < s.src.toNat + s.len.toNat := by
  simp [State.frameTooLarge, regionInRange]

/-- Everything START can do (R112). -/
theorem execStart_cases (s : State) :
    (s.phase ≠ .idle ∧ execStart s = .next s) ∨
    (s.phase = .idle ∧ s.frameTooLarge = true ∧ execStart s = .next (s.refuse .frameOutOfRange)) ∨
    (s.phase = .idle ∧ s.frameTooLarge = false ∧ execStart s = .next s.beginFrame) := by
  unfold execStart
  by_cases hp : s.phase = .idle
  · cases hf : s.frameTooLarge <;> simp [hp]
  · simp [hp]

/-! ### What no tick changes (R113) -/

@[simp] theorem State.tickPreamble_cfg (s : State) : s.tickPreamble.cfg = s.cfg := by
  unfold State.tickPreamble State.afterPreambleBit State.endPreamble
  split <;> (try split) <;> rfl
@[simp] theorem State.tickPayload_cfg (s : State) : s.tickPayload.cfg = s.cfg := by
  unfold State.tickPayload State.afterPayloadBit State.afterByte
  split <;> (try split) <;> rfl
@[simp] theorem State.tickStop_cfg (s : State) : s.tickStop.cfg = s.cfg := by
  unfold State.tickStop State.afterStopBit
  split <;> rfl
@[simp] theorem State.tickAction_cfg (s : State) : s.tickAction.cfg = s.cfg := by
  unfold State.tickAction
  split <;> simp [State.tickIdle]

@[simp] theorem State.tickPreamble_src (s : State) : s.tickPreamble.src = s.src := by
  unfold State.tickPreamble State.afterPreambleBit State.endPreamble
  split <;> (try split) <;> rfl
@[simp] theorem State.tickPayload_src (s : State) : s.tickPayload.src = s.src := by
  unfold State.tickPayload State.afterPayloadBit State.afterByte
  split <;> (try split) <;> rfl
@[simp] theorem State.tickStop_src (s : State) : s.tickStop.src = s.src := by
  unfold State.tickStop State.afterStopBit
  split <;> rfl
@[simp] theorem State.tickAction_src (s : State) : s.tickAction.src = s.src := by
  unfold State.tickAction
  split <;> simp [State.tickIdle]

@[simp] theorem State.tickPreamble_dst (s : State) : s.tickPreamble.dst = s.dst := by
  unfold State.tickPreamble State.afterPreambleBit State.endPreamble
  split <;> (try split) <;> rfl
@[simp] theorem State.tickPayload_dst (s : State) : s.tickPayload.dst = s.dst := by
  unfold State.tickPayload State.afterPayloadBit State.afterByte
  split <;> (try split) <;> rfl
@[simp] theorem State.tickStop_dst (s : State) : s.tickStop.dst = s.dst := by
  unfold State.tickStop State.afterStopBit
  split <;> rfl
@[simp] theorem State.tickAction_dst (s : State) : s.tickAction.dst = s.dst := by
  unfold State.tickAction
  split <;> simp [State.tickIdle]

@[simp] theorem State.tickPreamble_len (s : State) : s.tickPreamble.len = s.len := by
  unfold State.tickPreamble State.afterPreambleBit State.endPreamble
  split <;> (try split) <;> rfl
@[simp] theorem State.tickPayload_len (s : State) : s.tickPayload.len = s.len := by
  unfold State.tickPayload State.afterPayloadBit State.afterByte
  split <;> (try split) <;> rfl
@[simp] theorem State.tickStop_len (s : State) : s.tickStop.len = s.len := by
  unfold State.tickStop State.afterStopBit
  split <;> rfl
@[simp] theorem State.tickAction_len (s : State) : s.tickAction.len = s.len := by
  unfold State.tickAction
  split <;> simp [State.tickIdle]

@[simp] theorem State.tickPreamble_status (s : State) : s.tickPreamble.status = s.status := by
  unfold State.tickPreamble State.afterPreambleBit State.endPreamble
  split <;> (try split) <;> rfl
@[simp] theorem State.tickPayload_status (s : State) : s.tickPayload.status = s.status := by
  unfold State.tickPayload State.afterPayloadBit State.afterByte
  split <;> (try split) <;> rfl
@[simp] theorem State.tickStop_status (s : State) : s.tickStop.status = s.status := by
  unfold State.tickStop State.afterStopBit
  split <;> rfl
@[simp] theorem State.tickAction_status (s : State) : s.tickAction.status = s.status := by
  unfold State.tickAction
  split <;> simp [State.tickIdle]

@[simp] theorem State.tickPreamble_buf (s : State) : s.tickPreamble.buf = s.buf := by
  unfold State.tickPreamble State.afterPreambleBit State.endPreamble
  split <;> (try split) <;> rfl
@[simp] theorem State.tickPayload_buf (s : State) : s.tickPayload.buf = s.buf := by
  unfold State.tickPayload State.afterPayloadBit State.afterByte
  split <;> (try split) <;> rfl
@[simp] theorem State.tickStop_buf (s : State) : s.tickStop.buf = s.buf := by
  unfold State.tickStop State.afterStopBit
  split <;> rfl
@[simp] theorem State.tickAction_buf (s : State) : s.tickAction.buf = s.buf := by
  unfold State.tickAction
  split <;> simp [State.tickIdle]

@[simp] theorem State.tickPreamble_refused (s : State) : s.tickPreamble.refused = s.refused := by
  unfold State.tickPreamble State.afterPreambleBit State.endPreamble
  split <;> (try split) <;> rfl
@[simp] theorem State.tickPayload_refused (s : State) : s.tickPayload.refused = s.refused := by
  unfold State.tickPayload State.afterPayloadBit State.afterByte
  split <;> (try split) <;> rfl
@[simp] theorem State.tickStop_refused (s : State) : s.tickStop.refused = s.refused := by
  unfold State.tickStop State.afterStopBit
  split <;> rfl
@[simp] theorem State.tickAction_refused (s : State) : s.tickAction.refused = s.refused := by
  unfold State.tickAction
  split <;> simp [State.tickIdle]

@[simp] theorem State.tickPreamble_reasons (s : State) : s.tickPreamble.reasons = s.reasons := by
  unfold State.tickPreamble State.afterPreambleBit State.endPreamble
  split <;> (try split) <;> rfl
@[simp] theorem State.tickPayload_reasons (s : State) : s.tickPayload.reasons = s.reasons := by
  unfold State.tickPayload State.afterPayloadBit State.afterByte
  split <;> (try split) <;> rfl
@[simp] theorem State.tickStop_reasons (s : State) : s.tickStop.reasons = s.reasons := by
  unfold State.tickStop State.afterStopBit
  split <;> rfl
@[simp] theorem State.tickAction_reasons (s : State) : s.tickAction.reasons = s.reasons := by
  unfold State.tickAction
  split <;> simp [State.tickIdle]

@[simp] theorem State.tickPreamble_stream (s : State) : s.tickPreamble.stream = s.stream := by
  unfold State.tickPreamble State.afterPreambleBit State.endPreamble
  split <;> (try split) <;> rfl
@[simp] theorem State.tickPayload_stream (s : State) : s.tickPayload.stream = s.stream := by
  unfold State.tickPayload State.afterPayloadBit State.afterByte
  split <;> (try split) <;> rfl
@[simp] theorem State.tickStop_stream (s : State) : s.tickStop.stream = s.stream := by
  unfold State.tickStop State.afterStopBit
  split <;> rfl
@[simp] theorem State.tickAction_stream (s : State) : s.tickAction.stream = s.stream := by
  unfold State.tickAction
  split <;> simp [State.tickIdle]

/-! ### The phase actions -/

theorem State.tickAction_idle (s : State) (h : s.phase = .idle) : s.tickAction = s := by
  simp [State.tickAction, h, State.tickIdle]

theorem State.tickAction_preamble (s : State) (h : s.phase = .preamble) :
    s.tickAction = s.tickPreamble := by simp [State.tickAction, h]

theorem State.tickAction_payload (s : State) (h : s.phase = .payload) :
    s.tickAction = s.tickPayload := by simp [State.tickAction, h]

theorem State.tickAction_stop (s : State) (h : s.phase = .stop) :
    s.tickAction = s.tickStop := by simp [State.tickAction, h]

/-- What a register of AW bits keeps (R93). -/
theorem keepAw_toNat (c : Config) (v : Word) : (keepAw c.aw v).toNat = v.toNat % c.memSize := by
  have h : v.toNat % c.memSize < 2 ^ 32 :=
    Nat.lt_of_lt_of_le (Nat.mod_lt _ (Nat.two_pow_pos _)) c.memSize_le
  rw [keepAw, BitVec.toNat_ofNat]
  exact Nat.mod_eq_of_lt h

theorem keepAw_lt (c : Config) (v : Word) : (keepAw c.aw v).toNat < c.memSize := by
  rw [keepAw_toNat]
  exact Nat.mod_lt _ (Nat.two_pow_pos _)

/-- The byte cursor moves on by one while it is below a frame length that fits (R37). -/
theorem State.nextByteIdx_toNat (s : State) (h : s.byteIdx.toNat + 1 < s.cfg.memSize) :
    s.nextByteIdx.toNat = s.byteIdx.toNat + 1 := by
  have hle := s.cfg.memSize_le
  have h1 : (1 : Word).toNat = 1 := rfl
  rw [State.nextByteIdx, keepAw_toNat, BitVec.toNat_add, h1,
    Nat.mod_eq_of_lt (a := s.byteIdx.toNat + 1) (by omega), Nat.mod_eq_of_lt h]

end Sys2Proof.Machine
end

