-- ==== Sys2Proof/Laws/PerInstr.lean ====
section
/-! SUPPORT. The laws stated per operation.  `EncodingRow`: the word an operation encodes to belongs to that operation's
row of spec/opcode_table.json, and the row looks only at bits that matter. -/

namespace Sys2Proof.Laws.EncodingRow

/-- The encoding of `i` lies in the row of the opcode table with its mnemonic, and the row's mask covers only the
meaningful bits of `i`. -/
def Statement (i : Instr) : Prop :=
  ∃ row ∈ opcodeTable, row.mnemonic = i.mnemonic ∧ row.selects (encode i) = true ∧
    meaningfulBits i &&& row.mask = row.mask

/-- A mask that keeps only bits the layout fixes makes the row's pattern of a word. -/
theorem of_row (i : Instr) (row : OpcodeRow) (hrow : row ∈ opcodeTable)
    (hname : row.mnemonic = i.mnemonic) (hword : encode i &&& row.mask = row.pattern)
    (hmask : meaningfulBits i &&& row.mask = row.mask) : Statement i :=
  ⟨row, hrow, hname, by simp [OpcodeRow.selects, hword], hmask⟩

theorem cmdEncode (std : BitVec 2) : Statement (.cmdEncode std) :=
  of_row _ opcodeTable[0] (List.getElem_mem _) rfl (by revert std; decide) (by
    change 0xFFFFFFFF00000037#64 &&& opcodeTable[0].mask = opcodeTable[0].mask
    decide)

theorem cmdDecode (std : BitVec 2) : Statement (.cmdDecode std) :=
  of_row _ opcodeTable[1] (List.getElem_mem _) rfl (by revert std; decide) (by
    change 0xFFFFFFFF00000037#64 &&& opcodeTable[1].mask = opcodeTable[1].mask
    decide)

theorem cmdStart : Statement .cmdStart :=
  of_row _ opcodeTable[2] (List.getElem_mem _) rfl (by decide) (by decide)

theorem wrSrc (data : Word) : Statement (.wrSrc data) :=
  of_row _ opcodeTable[3] (List.getElem_mem _) rfl (by
    apply BitVec.eq_of_getLsbD_eq
    intro k hk
    simp only [encode, regWriteWord, BitVec.getLsbD_append, BitVec.getLsbD_and, opcodeTable,
      List.getElem_cons_succ, List.getElem_cons_zero]
    interval_cases k <;> simp) (by
    change 0xFFFFFFFFFFFFFFFF#64 &&& opcodeTable[3].mask = opcodeTable[3].mask
    decide)

theorem wrDst (data : Word) : Statement (.wrDst data) :=
  of_row _ opcodeTable[4] (List.getElem_mem _) rfl (by
    apply BitVec.eq_of_getLsbD_eq
    intro k hk
    simp only [encode, regWriteWord, BitVec.getLsbD_append, BitVec.getLsbD_and, opcodeTable,
      List.getElem_cons_succ, List.getElem_cons_zero]
    interval_cases k <;> simp) (by
    change 0xFFFFFFFFFFFFFFFF#64 &&& opcodeTable[4].mask = opcodeTable[4].mask
    decide)

theorem wrLen (data : Word) : Statement (.wrLen data) :=
  of_row _ opcodeTable[5] (List.getElem_mem _) rfl (by
    apply BitVec.eq_of_getLsbD_eq
    intro k hk
    simp only [encode, regWriteWord, BitVec.getLsbD_append, BitVec.getLsbD_and, opcodeTable,
      List.getElem_cons_succ, List.getElem_cons_zero]
    interval_cases k <;> simp) (by
    change 0xFFFFFFFFFFFFFFFF#64 &&& opcodeTable[5].mask = opcodeTable[5].mask
    decide)

theorem rdSrc : Statement .rdSrc :=
  of_row _ opcodeTable[6] (List.getElem_mem _) rfl (by decide) (by decide)

theorem rdDst : Statement .rdDst :=
  of_row _ opcodeTable[7] (List.getElem_mem _) rfl (by decide) (by decide)

theorem rdLen : Statement .rdLen :=
  of_row _ opcodeTable[8] (List.getElem_mem _) rfl (by decide) (by decide)

theorem rdCodecStatus : Statement .rdCodecStatus :=
  of_row _ opcodeTable[9] (List.getElem_mem _) rfl (by decide) (by decide)

theorem rdFramerStatus : Statement .rdFramerStatus :=
  of_row _ opcodeTable[10] (List.getElem_mem _) rfl (by decide) (by decide)

theorem rdByteIdx : Statement .rdByteIdx :=
  of_row _ opcodeTable[11] (List.getElem_mem _) rfl (by decide) (by decide)

theorem rdBitIdx : Statement .rdBitIdx :=
  of_row _ opcodeTable[12] (List.getElem_mem _) rfl (by decide) (by decide)

theorem rdCounters : Statement .rdCounters :=
  of_row _ opcodeTable[13] (List.getElem_mem _) rfl (by decide) (by decide)

theorem rdFrameBase : Statement .rdFrameBase :=
  of_row _ opcodeTable[14] (List.getElem_mem _) rfl (by decide) (by decide)

theorem rdFrameLen : Statement .rdFrameLen :=
  of_row _ opcodeTable[15] (List.getElem_mem _) rfl (by decide) (by decide)

theorem memWrite (addr : Word) (data : Byte) : Statement (.memWrite addr data) :=
  of_row _ opcodeTable[16] (List.getElem_mem _) rfl (by
    apply BitVec.eq_of_getLsbD_eq
    intro k hk
    simp only [encode, memWriteWord, BitVec.getLsbD_append, BitVec.getLsbD_and, opcodeTable,
      List.getElem_cons_succ, List.getElem_cons_zero]
    interval_cases k <;> simp) (by
    change 0xFFFFFFFFFFFFFFFF#64 &&& opcodeTable[16].mask = opcodeTable[16].mask
    decide)

theorem memRead (addr : Word) : Statement (.memRead addr) :=
  of_row _ opcodeTable[17] (List.getElem_mem _) rfl (by
    apply BitVec.eq_of_getLsbD_eq
    intro k hk
    simp only [encode, memReadWord, BitVec.getLsbD_append, BitVec.getLsbD_and, opcodeTable,
      List.getElem_cons_succ, List.getElem_cons_zero]
    interval_cases k <;> simp) (by
    change 0xFFFFFFFFFFFFFFFF#64 &&& opcodeTable[17].mask = opcodeTable[17].mask
    decide)

theorem tick : Statement .tick :=
  of_row _ opcodeTable[18] (List.getElem_mem _) rfl (by decide) (by decide)

end Sys2Proof.Laws.EncodingRow
end

