-- ==== Sys2Proof/Laws/Step.lean ====
section
/-! SUPPORT. What a step, a run of operations and each phase action can do, said once; and the memory a cut command
leaves. -/

namespace Sys2Proof.Machine

/-! ### A step and a run -/

theorem step_nil (s : State) (h : s.stream = []) : step s = .next s := by
  simp [step, h]

theorem step_cons (s : State) (a : Arrival) (rest : List Arrival) (h : s.stream = a :: rest) :
    step s = runArrival a { s with stream := rest } := by
  simp [step, h]

theorem runArrival_tick (s : State) : runArrival .tick s = .next s.tickAction := rfl

theorem exec_tick (s : State) : exec .tick s = .next s.tickAction := rfl

/-- A word on the host port runs the operation it decodes to, or is refused (R91). -/
theorem runArrival_host (w : TxnWord) (s : State) :
    runArrival (.host w) s = match decodeHost w with
      | .instr i => exec i s
      | .reject _ => .next (s.refuse .reservedEncoding) := rfl

@[simp] theorem andThen_next {σ τ : Type} (s : σ) (f : σ → Host.Outcome τ Fault Refusal) :
    andThen (.next s) f = f s := rfl

@[simp] theorem runInstrs_nil (s : State) : runInstrs [] s = .next s := rfl

theorem runInstrs_cons (i : Instr) (is : List Instr) (s : State) :
    runInstrs (i :: is) s = andThen (exec i s) (runInstrs is) := rfl

@[simp] theorem runTicks_zero (s : State) : runTicks 0 s = .next s := rfl

theorem runTicks_succ (n : Nat) (s : State) : runTicks (n + 1) s = runTicks n s.tickAction := rfl

/-! ### Memory access -/

/-- Everything MEM_WRITE can do (R143). -/
theorem execMemWrite_cases (addr : Word) (data : Byte) (s : State) :
    (s.cfg.memSize ≤ addr.toNat ∧
      execMemWrite addr data s = .next (s.refuse .reservedEncoding)) ∨
    (addr.toNat < s.cfg.memSize ∧ s.borrowViolated addr.toNat 1 = true ∧
      execMemWrite addr data s = .next (s.refuse .borrowViolation)) ∨
    (addr.toNat < s.cfg.memSize ∧ s.borrowViolated addr.toNat 1 = false ∧
      execMemWrite addr data s = .next (s.storeBytes addr.toNat [data])) := by
  unfold execMemWrite
  by_cases h : s.cfg.memSize ≤ addr.toNat
  · exact .inl ⟨h, if_pos h⟩
  · cases hb : s.borrowViolated addr.toNat 1 <;> simp [h] <;> omega

/-- Everything MEM_READ can do (R144). -/
theorem execMemRead_cases (addr : Word) (s : State) :
    (s.cfg.memSize ≤ addr.toNat ∧
      execMemRead addr s = .next (s.refuse .reservedEncoding)) ∨
    (addr.toNat < s.cfg.memSize ∧
      execMemRead addr s = .next (s.emit (.read ((s.readByte addr.toNat).setWidth 32)))) := by
  unfold execMemRead
  by_cases h : s.cfg.memSize ≤ addr.toNat
  · exact .inl ⟨h, if_pos h⟩
  · exact .inr ⟨by omega, if_neg h⟩

/-! ### The phase actions -/

/-- Everything a Preamble tick can do (R115): go on, or end the preamble into Stop or into Payload. -/
theorem State.tickPreamble_cases (s : State) :
    ((s.preCnt + 1).toNat ≠ s.cfg.preambleLen ∧
      s.tickPreamble = { s with preCnt := s.preCnt + 1 }.lineWrite s.preambleBit) ∨
    ((s.preCnt + 1).toNat = s.cfg.preambleLen ∧ s.frameLen = 0 ∧
      s.tickPreamble = { { s with preCnt := s.preCnt + 1 }.lineWrite s.preambleBit with
        byteIdx := 0, bitIdx := 0, stopCnt := 0, phase := .stop }) ∨
    ((s.preCnt + 1).toNat = s.cfg.preambleLen ∧ s.frameLen ≠ 0 ∧
      s.tickPreamble = { { s with preCnt := s.preCnt + 1 }.lineWrite s.preambleBit with
        byteIdx := 0, bitIdx := 0, phase := .payload }) := by
  by_cases h : (s.preCnt + 1).toNat = s.cfg.preambleLen
  · by_cases hl : s.frameLen = 0
    · exact .inr (.inl ⟨h, hl, (if_pos h).trans (if_pos hl)⟩)
    · exact .inr (.inr ⟨h, hl, (if_pos h).trans (if_neg hl)⟩)
  · exact .inl ⟨h, if_neg h⟩

/-- Everything a Payload tick can do (R116): the next bit, the next byte, or Stop. -/
theorem State.tickPayload_cases (s : State) :
    (s.bitIdx ≠ 7 ∧
      s.tickPayload = { s.lineWrite s.payloadBit with bitIdx := s.bitIdx + 1 }) ∨
    (s.bitIdx = 7 ∧ s.nextByteIdx ≠ s.frameLen ∧
      s.tickPayload = { s.lineWrite s.payloadBit with bitIdx := 0, byteIdx := s.nextByteIdx }) ∨
    (s.bitIdx = 7 ∧ s.nextByteIdx = s.frameLen ∧
      s.tickPayload = { s.lineWrite s.payloadBit with
        bitIdx := 0, byteIdx := s.nextByteIdx, stopCnt := 0, phase := .stop }) := by
  by_cases h : s.bitIdx = 7
  · by_cases hl : s.nextByteIdx = s.frameLen
    · exact .inr (.inr ⟨h, hl, (if_pos h).trans (if_pos hl)⟩)
    · exact .inr (.inl ⟨h, hl, (if_pos h).trans (if_neg hl)⟩)
  · exact .inl ⟨h, if_neg h⟩

/-- Everything a Stop tick can do (R117): go on, or complete the transmission. -/
theorem State.tickStop_cases (s : State) :
    ((s.stopCnt + 1).toNat ≠ s.cfg.stopLen ∧
      s.tickStop = { s with stopCnt := s.stopCnt + 1 }.lineWrite false) ∨
    ((s.stopCnt + 1).toNat = s.cfg.stopLen ∧
      s.tickStop = { { s with stopCnt := s.stopCnt + 1 }.lineWrite false with
        frameBase := 0, frameLen := 0, done := true, phase := .idle }.emit .done) := by
  by_cases h : (s.stopCnt + 1).toNat = s.cfg.stopLen
  · exact .inr ⟨h, if_pos h⟩
  · exact .inl ⟨h, if_neg h⟩

/-! ### A command cut by a reset -/

/-- A reset that cuts a command keeps the canonical form. -/
theorem Memory.wf_cut (free : Nat → Byte) (d n : Nat) (m : Memory) (hm : Memory.wf m = true) :
    Memory.wf (Memory.cut free d n m) = true := Memory.wf_writeBytes m hm d _

/-- A reset that cuts a command lists no address past the end of BUF. -/
theorem Memory.within_cut (size : Nat) (free : Nat → Byte) (d n : Nat) (m : Memory)
    (hm : Memory.within size m = true) (hr : d + n ≤ size) :
    Memory.within size (Memory.cut free d n m) = true :=
  Memory.within_writeBytes size m hm d _ (by simpa using hr)

/-- What every byte holds after a reset that cuts a command. -/
theorem Memory.readByte_cut (free : Nat → Byte) (d n : Nat) (m : Memory) (hm : Memory.wf m = true) (a : Nat) :
    (Memory.cut free d n m).readByte a = if d ≤ a ∧ a < d + n then free a else m.readByte a := by
  unfold Memory.cut
  split
  · next h =>
    obtain ⟨i, rfl⟩ := Nat.exists_eq_add_of_le h.1
    rw [Memory.readByte_writeBytes_inside m hm d i _ (by simp; omega)]
    simp
  · next h => exact Memory.readByte_writeBytes_outside m hm d a _ (by simp; omega)

/-- A command that was refused leaves a reset no open byte; any other leaves its destination. -/
theorem openBytes_cases (w : TxnWord) (s t : State) :
    (t.reasons = s.reasons ∧ openBytes w s t = codecDestination w s) ∨
    (t.reasons ≠ s.reasons ∧ openBytes w s t = ⟨0, 0⟩) := by
  by_cases h : t.reasons = s.reasons
  · exact .inl ⟨h, if_pos h⟩
  · exact .inr ⟨h, if_neg h⟩

/-- A reset that finds no codec command running keeps BUF. -/
theorem Block.resetEdge_idle (b : Block) (h : b.busy = 0) :
    b.resetEdge = { Block.ofCore b.core.afterReset with cuts := b.cuts } := if_pos h

/-- A reset that cuts a codec command starts the next run on the cut memory. -/
theorem Block.resetEdge_cut (b : Block) (h : b.busy ≠ 0) :
    b.resetEdge = { Block.ofCore (State.initial b.core.cfg
      (Memory.cut (Config.cutByte b.cuts) b.writing.base b.writing.size b.core.buf)) with cuts := b.cuts + 1 } :=
  if_neg h

/-- The memory of the reset state has the canonical form. -/
theorem reset_memory_wf : Memory.wf State.reset.buf = true := rfl

end Sys2Proof.Machine
end

