-- ==== Sys2Proof/Tests/Slice0.lean ====
section
/-! SUPPORT. Tests of the model's author.  The expected values are those of spec/95_test_vectors.md, named by their
row there (H1, C1, F2, ...), or worked out by hand from the rule cited; none is the model's own answer.  The theorems
`witness_<Name>` show a concrete state and operands that meet the premises of `Obligations.<Name>`, one for each
clause. -/

namespace Sys2Proof.Tests

open Sys2Proof Sys2Proof.Machine

/-! ### Helpers -/

/-- The next state, if there is one. -/
def nextOf (o : Host.Outcome State Fault Refusal) : Option State :=
  match o with
  | .next s => some s
  | .fault _ => none
  | .refused _ => none

/-- The state after operation `i`. -/
def after (i : Instr) (s : State) : Option State := nextOf (exec i s)

/-- Reset with the three operand registers and some bytes of BUF. -/
def withOperands (src dst len : Word) (buf : Memory) : State :=
  { State.reset with src := src, dst := dst, len := len, buf := buf }

/-- The frame 0x55, 0x56 at 0x80 in Payload, its first bit already sent (program 3 of spec/95_test_vectors.md). -/
def sending : State :=
  { State.reset with
    phase := .payload, preCnt := 7, bitIdx := 1, frameBase := 0x80, frameLen := 2,
    src := 0x90, len := 5, buf := [(0x80, 0x55), (0x81, 0x56)] }

/-- A frame of two bytes at 0x20 in Preamble, `n` bits sent. -/
def inPreamble (n : BitVec 16) : State :=
  { State.reset with
    phase := .preamble, preCnt := n, frameBase := 0x20, frameLen := 2,
    buf := [(0x20, 0x66), (0x21, 0x66)] }

/-- The same frame in Stop, `n` stop bits sent. -/
def inStop (n : BitVec 16) : State :=
  { State.reset with
    phase := .stop, preCnt := 7, byteIdx := 2, stopCnt := n, frameBase := 0x20, frameLen := 2,
    buf := [(0x20, 0x66), (0x21, 0x66)] }

/-! ### Well-formedness and configurations -/

/-- R81 with R15: at AW = 16 the address 0x10000 is refused (H8) and 0xFFFF is not (H7). -/
theorem test_wellFormed_memWrite :
    Instr.wellFormed Config.test (.memWrite 0x10000 0x01) = false ∧
      Instr.wellFormed Config.test (.memWrite 0xFFFF 0x01) = true := by decide

/-- R82: H9. -/
theorem test_wellFormed_memRead :
    Instr.wellFormed Config.test (.memRead 0xFFFFFFFF) = false ∧
      Instr.wellFormed Config.test (.memRead 0xFFFF) = true := by decide

/-- R15 to R18, R20: what is no configuration. -/
theorem test_build_refuses :
    Config.build 0 0 1 [true] 1 = none ∧ Config.build 33 0 1 [true] 1 = none ∧
    Config.build 1 2 1 [true] 1 = none ∧ Config.build 16 256 0 [] 4 = none ∧
    Config.build 16 256 7 [true] 4 = none ∧ Config.build 16 256 1 [true] 0 = none := by decide

/-- The smallest configuration is one (R15 to R18). -/
theorem test_build_accepts : (Config.build 1 0 1 [true] 1).isSome = true := by decide

/-! ### Decoding: words written out from spec/30_encoding.md -/

/-- R84, R85: bit by bit, KIND 0000, must-be-0, REG 0000, then the CMD word; C1, C7's bits, and `start` with every ignored bit
set. -/
theorem test_decode_commands :
    decode 0b0000000000000000000000000000000000000000000000000000000000000001#64 = .instr (.cmdEncode 0b00#2) ∧
    decode 0b0000000000000000000000000000000000000000000000000000000000110010#64 = .instr (.cmdDecode 0b11#2) ∧
    decode 0b0000000000000000000000000000000000000000000000000000000000000011#64 = .instr .cmdStart ∧
    decode 0x0000000000000039#64 = .instr (.cmdEncode 0b11#2) ∧
    decode 0x00000000FFFFFFC1#64 = .instr (.cmdEncode 0b00#2) ∧
    decode 0x00000000FFFFFFDA#64 = .instr (.cmdDecode 0b01#2) ∧
    decode 0x00000000FFFFFFFB#64 = .instr .cmdStart := by decide

/-- R79: bit by bit for WR_DST (REG 0010, DATA 0x60), then H1 and a write of LEN. -/
theorem test_decode_register_writes :
    decode 0b0000000000000000000000000000001000000000000000000000000001100000#64 = .instr (.wrDst 0x60#32) ∧
    decode 0x0000000112340010#64 = .instr (.wrSrc 0x12340010#32) ∧
    decode 0x00000003FFFFFFFF#64 = .instr (.wrLen 0xFFFFFFFF#32) := by decide

/-- R80, R27: bit by bit for COUNTERS (KIND 0001, REG 1000), then every readable register. -/
theorem test_decode_register_reads :
    decode 0b0001000000000000000000000000100000000000000000000000000000000000#64 = .instr .rdCounters ∧
    decode 0x1000000100000000#64 = .instr .rdSrc ∧
    decode 0x1000000200000000#64 = .instr .rdDst ∧
    decode 0x1000000300000000#64 = .instr .rdLen ∧
    decode 0x1000000400000000#64 = .instr .rdCodecStatus ∧
    decode 0x1000000500000000#64 = .instr .rdFramerStatus ∧
    decode 0x1000000600000000#64 = .instr .rdByteIdx ∧
    decode 0x1000000700000000#64 = .instr .rdBitIdx ∧
    decode 0x1000000900000000#64 = .instr .rdFrameBase ∧
    decode 0x1000000A00000000#64 = .instr .rdFrameLen := by decide

/-- R81, R82, R83: bit by bit for H5 (KIND 0010, ADDR 0x10, DATA 0xAA), then H6, H7 and the TICK word. -/
theorem test_decode_memory_and_tick :
    decode 0b0010000000000000000000000000000000000000000000000001000010101010#64 =
      .instr (.memWrite 0x10#32 0xAA#8) ∧
    decode 0x3000000000001000#64 = .instr (.memRead 0x10#32) ∧
    decode 0x2000000000FFFF01#64 = .instr (.memWrite 0xFFFF#32 0x01#8) ∧
    decode 0x4000000000000000#64 = .instr .tick := by decide

/-- H10 to H22: each reserved encoding is rejected, by name. -/
theorem test_decode_rejects :
    decode 0x5000000000000000#64 = .reject .reservedKind ∧
    decode 0x0000001000000000#64 = .reject .mustBeZero ∧
    decode 0x0000000000000000#64 = .reject .reservedOp ∧
    decode 0x0000000000000007#64 = .reject .reservedOp ∧
    decode 0x0000000400000000#64 = .reject .notWritable ∧
    decode 0x0000000B00000000#64 = .reject .notWritable ∧
    decode 0x1000000000000000#64 = .reject .notReadable ∧
    decode 0x1000000B00000000#64 = .reject .notReadable ∧
    decode 0x1000000100000001#64 = .reject .mustBeZero ∧
    decode 0x30000000000010FF#64 = .reject .mustBeZero ∧
    decode 0x4000000000000001#64 = .reject .notTheTickWord ∧
    decode 0x2000010000000000#64 = .reject .mustBeZero ∧
    decodeHost 0x4000000000000000#64 = .reject .tickOnHostPort := by decide

/-! ### The codec -/

/-- The table of ENC8 in spec/95_test_vectors.md, section 2.1. -/
theorem test_enc8 :
    enc8 .ieee 0x12 = 0xA9A6#16 ∧ enc8 .thomas 0x12 = 0x5659#16 ∧
    enc8 .ieee 0xC3 = 0x5AA5#16 ∧ enc8 .thomas 0x01 = 0x5556#16 := by decide

/-- The table of DEC16 in spec/95_test_vectors.md, section 2.2. -/
theorem test_dec16 :
    dec16 .ieee 0x5595 = some 0xF7#8 ∧ dec16 .thomas 0x5595 = some 0x08#8 ∧
    dec16 .ieee 0x1555 = none ∧ dec16 .thomas 0x5557 = none := by decide

/-- S2, S3, S5 and W3. -/
theorem test_encodeSeq :
    encodeSeq [0x12, 0xA5] 0b00 = (.ok, [0xA9, 0xA6, 0x66, 0x99]) ∧
    encodeSeq [0x12, 0xA5] 0b01 = (.ok, [0x56, 0x59, 0x99, 0x66]) ∧
    encodeSeq [] 0b11 = (.errorStandard, []) ∧
    encodeSeq [0x00] 0b01 = (.ok, [0x55, 0x55]) := by decide

/-- S8, S10, S12 and S14. -/
theorem test_decodeSeq :
    decodeSeq [0x12] 0b11 = (.errorSize, []) ∧
    decodeSeq [0x00, 0x00] 0b10 = (.errorStandard, []) ∧
    decodeSeq [0x66, 0x67] 0b00 = (.invalidEncode, []) ∧
    decodeSeq [0x66, 0x66, 0x59, 0x56] 0b01 = (.ok, [0x55, 0x21]) := by decide

/-- C2: the destination right after the source. -/
theorem test_encode_C2 :
    (after (.cmdEncode 0b00) (withOperands 0x10 0x12 2 [(0x10, 0x01), (0x11, 0x02)])).map
        (fun t => (t.status, t.buf)) =
      some (.ok, [(0x10, 0x01), (0x11, 0x02), (0x12, 0xAA), (0x13, 0xA9), (0x14, 0xAA), (0x15, 0xA6)]) := by
  decide

/-- C9 and C5: refused, and an unrecognised standard. -/
theorem test_encode_C9_C5 :
    (after (.cmdEncode 0b00) (withOperands 0 0xFFFF 1 [])).map (fun t => (t.refused, t.reasons)) =
      some (true, [.regionOutOfRange]) ∧
    (after (.cmdEncode 0b11) (withOperands 0x10 0x20 2 [])).map (fun t => (t.status, t.buf, t.refused)) =
      some (.errorStandard, [], false) := by decide

/-- C12: DECODE. -/
theorem test_decode_C12 :
    (after (.cmdDecode 0b00) (withOperands 0x20 0x30 2 [(0x20, 0x66), (0x21, 0x66)])).map
        (fun t => (t.status, t.buf)) =
      some (.ok, [(0x20, 0x66), (0x21, 0x66), (0x30, 0xAA)]) := by decide

/-- C13 and C16: no partial payload, and the overlap before the standard. -/
theorem test_decode_C13_C16 :
    (after (.cmdDecode 0b00) (withOperands 0x10 0x20 4
        [(0x10, 0x66), (0x11, 0x66), (0x12, 0x66), (0x13, 0x67), (0x20, 0xEE), (0x21, 0xEE)])).map
        (fun t => (t.status, t.buf)) =
      some (.invalidEncode,
        [(0x10, 0x66), (0x11, 0x66), (0x12, 0x66), (0x13, 0x67), (0x20, 0xEE), (0x21, 0xEE)]) ∧
    (after (.cmdDecode 0b10) (withOperands 0x20 0x21 2 [])).map (fun t => (t.status, t.reasons)) =
      some (.ok, [.regionOverlap]) := by decide

/-! ### The framer -/

/-- The example of R112, and F8. -/
theorem test_start :
    (after .cmdStart (withOperands 0x20 0 2 [])).map
        (fun t => (t.phase, t.frameBase, t.frameLen, t.done, t.events)) =
      some (.preamble, 0x20, 2, false, []) ∧
    (after .cmdStart (withOperands 0x20 0 257 [])).map (fun t => (t.phase, t.reasons)) =
      some (.idle, [.frameOutOfRange]) := by decide

/-- F5: a START in Payload changes nothing. -/
theorem test_start_F5 : after .cmdStart sending = some sending := by decide

/-- F2 and the last Preamble tick of section 4.1. -/
theorem test_tick_preamble :
    (after .tick (inPreamble 4)).map (fun t => (t.events, t.preCnt, t.phase)) =
      some ([.line true], 5, .preamble) ∧
    (after .tick (inPreamble 6)).map (fun t => (t.events, t.preCnt, t.phase)) =
      some ([.line true], 7, .payload) := by decide

/-- Program 3, step 21 (bit 6 of 0x55), and F6. -/
theorem test_tick_payload_and_stop :
    (after .tick sending).map (fun t => (t.events, t.bitIdx, t.byteIdx)) =
      some ([.line true], 2, 0) ∧
    (after .tick (inStop 3)).map
        (fun t => (t.events, t.stopCnt, t.phase, t.done, t.frameBase, t.frameLen)) =
      some ([.line false, .done], 4, .idle, true, 0, 0) := by decide

/-! ### Host access -/

/-- H1, and the same data to DST and LEN. -/
theorem test_register_writes :
    (after (.wrSrc 0x12340010) State.reset).map (fun t => (t.src, t.dst, t.len)) = some (0x10, 0, 0) ∧
    (after (.wrDst 0x12340010) State.reset).map (fun t => (t.src, t.dst, t.len)) = some (0, 0x10, 0) ∧
    (after (.wrLen 0x12340010) State.reset).map (fun t => (t.src, t.dst, t.len)) = some (0, 0, 0x10) := by
  decide

/-- R132 to R134, R137, R138, R140, R141: the reads of a framer in Payload with its registers set apart. -/
theorem test_register_reads :
    (after .rdSrc sending).map (·.events) = some [.read 0x90] ∧
    (after .rdDst { sending with dst := 0x33 }).map (·.events) = some [.read 0x33] ∧
    (after .rdLen sending).map (·.events) = some [.read 5] ∧
    (after .rdByteIdx (inStop 1)).map (·.events) = some [.read 2] ∧
    (after .rdBitIdx sending).map (·.events) = some [.read 1] ∧
    (after .rdFrameBase sending).map (·.events) = some [.read 0x80] ∧
    (after .rdFrameLen sending).map (·.events) = some [.read 2] := by decide

/-- E3 (0xA), H4 (0x40007) and program 2, step 9 (0x3). -/
theorem test_status_reads :
    (after .rdFramerStatus { sending with line := true }).map (·.events) = some [.read 0xA] ∧
    (after .rdCounters { State.reset with preCnt := 7, stopCnt := 4 }).map (·.events) = some [.read 0x40007] ∧
    (after .rdCodecStatus { State.reset with status := .errorSize }).map (·.events) = some [.read 3] := by
  decide

/-- H24 and H23's address: beside the frame, and the last byte of it. -/
theorem test_memWrite :
    (after (.memWrite 0x82 0x11) sending).map (fun t => (t.buf, t.refused)) =
      some ([(0x80, 0x55), (0x81, 0x56), (0x82, 0x11)], false) ∧
    (after (.memWrite 0x81 0x00) sending).map (fun t => (t.buf, t.refused, t.reasons)) =
      some ([(0x80, 0x55), (0x81, 0x56)], true, [.borrowViolation]) := by decide

/-- Program 3, step 20, and H9. -/
theorem test_memRead :
    (after (.memRead 0x81) sending).map (fun t => (t.events, t.refused)) = some ([.read 0x56], false) ∧
    (after (.memRead 0xFFFFFFFF) sending).map (fun t => (t.events, t.reasons)) =
      some ([], [.reservedEncoding]) := by decide

/-! ### A step -/

/-- The listing word of H1, fetched first after reset. -/
theorem test_step_runs_the_word :
    (nextOf (step (State.reset.withFetchWord 64 0x0000000112340010))).map (fun t => (t.src, t.stream)) =
      some (0x10, []) := by decide

/-- H10: a reserved KIND on the host port is refused and nothing else changes. -/
theorem test_step_refuses_the_word :
    nextOf (step (State.reset.withFetchWord 64 0x5000000000000000)) =
      some { State.reset with refused := true, reasons := [.reservedEncoding] } := by decide

/-! ### States that meet the invariant -/

theorem reset_inv : State.reset.Inv where
  registers := by constructor <;> decide
  bufCanonical := by decide
  bufWithin := by decide
  status := by decide
  refusals := by decide
  framer :=
    { idle := fun _ => ⟨by decide, by decide, by decide, .inl (by decide), .inl (by decide)⟩
      preamble := fun h => absurd h (by decide)
      payload := fun h => absurd h (by decide)
      stop := fun h => absurd h (by decide)
      active := fun h => absurd h (by decide) }

theorem sending_inv : sending.Inv where
  registers := by constructor <;> decide
  bufCanonical := by decide
  bufWithin := by decide
  status := by decide
  refusals := by decide
  framer :=
    { idle := fun h => absurd h (by decide)
      preamble := fun h => absurd h (by decide)
      payload := fun _ => ⟨by decide, by decide, by decide, by decide⟩
      stop := fun h => absurd h (by decide)
      active := fun _ => ⟨by decide, by decide⟩ }

/-- `sending` at the last bit of its first byte. -/
def endOfByte : State := { sending with bitIdx := 7 }

/-- `sending` at the last bit of its last byte. -/
def endOfFrame : State := { sending with byteIdx := 1, bitIdx := 7 }

theorem endOfByte_inv : endOfByte.Inv where
  registers := by constructor <;> decide
  bufCanonical := by decide
  bufWithin := by decide
  status := by decide
  refusals := by decide
  framer :=
    { idle := fun h => absurd h (by decide)
      preamble := fun h => absurd h (by decide)
      payload := fun _ => ⟨by decide, by decide, by decide, by decide⟩
      stop := fun h => absurd h (by decide)
      active := fun _ => ⟨by decide, by decide⟩ }

theorem endOfFrame_inv : endOfFrame.Inv where
  registers := by constructor <;> decide
  bufCanonical := by decide
  bufWithin := by decide
  status := by decide
  refusals := by decide
  framer :=
    { idle := fun h => absurd h (by decide)
      preamble := fun h => absurd h (by decide)
      payload := fun _ => ⟨by decide, by decide, by decide, by decide⟩
      stop := fun h => absurd h (by decide)
      active := fun _ => ⟨by decide, by decide⟩ }

/-- A frame in Preamble while the host decodes it elsewhere (C19). -/
def decodingActive : State := { inPreamble 4 with src := 0x20, dst := 0x30, len := 2 }

theorem decodingActive_inv : decodingActive.Inv where
  registers := by constructor <;> decide
  bufCanonical := by decide
  bufWithin := by decide
  status := by decide
  refusals := by decide
  framer :=
    { idle := fun h => absurd h (by decide)
      preamble := fun _ => ⟨by decide, by decide, by decide, by decide⟩
      payload := fun h => absurd h (by decide)
      stop := fun h => absurd h (by decide)
      active := fun _ => ⟨by decide, by decide⟩ }

/-! ### Witnesses: encoding -/

theorem witness_EncodeOfDecodeIsTheMeaningfulBits :
    decode 0x00000000FFFFFFC1#64 = .instr (.cmdEncode 0b00#2) := by decide

theorem witness_DecoderAgreesWithTheOpcodeTable :
    decode 0x2000000000FFFF01#64 = .instr (.memWrite 0xFFFF#32 0x01#8) ∧
    (∃ row ∈ opcodeTable, row.selects 0x2000000000FFFF01#64 = true) ∧
    (∃ row ∈ opcodeTable, ∃ row' ∈ opcodeTable,
      row.selects 0x4000000000000000#64 = true ∧ row'.selects 0x4000000000000000#64 = true) := by
  decide

/-- One word for each clause, at a boundary of its range: KIND 5, H21, the TICK word, bit 36 of a REG_WRITE, bit 0 of a
REG_READ, bit 40 of a MEM_READ, bit 0 of a MEM_READ, REG 4 written, REG 0 and REG 0xB read, OP 0 and OP 4, address
0x10000. -/
theorem witness_ReservedEncodingsAreRefused :
    (∀ w, ({ State.reset with stream := [.host w] } : State).stream = .host w :: []) ∧
    (kindField 0x5000000000000000#64).toNat ≥ 5 ∧
    (kindField 0x4000000000000001#64 = 4 ∧ 0x4000000000000001#64 ≠ 0x4000000000000000#64) ∧
    (kindField 0x0000001000000000#64 = 0 ∧ regZeroField 0x0000001000000000#64 ≠ 0) ∧
    (kindField 0x1000000100000001#64 = 1 ∧ dataField 0x1000000100000001#64 ≠ 0) ∧
    (kindField 0x3000010000000000#64 = 3 ∧ memZeroField 0x3000010000000000#64 ≠ 0) ∧
    (kindField 0x3000000000000001#64 = 3 ∧ byteField 0x3000000000000001#64 ≠ 0) ∧
    (kindField 0x0000000400000000#64 = 0 ∧ (regField 0x0000000400000000#64).toNat ≥ 4) ∧
    (kindField 0x1000000000000000#64 = 1 ∧ (regField 0x1000000000000000#64).toNat = 0) ∧
    (kindField 0x1000000B00000000#64 = 1 ∧ (regField 0x1000000B00000000#64).toNat ≥ 11) ∧
    (kindField 0x0000000000000000#64 = 0 ∧ regField 0x0000000000000000#64 = 0 ∧
      (opField (dataField 0x0000000000000000#64)).toNat = 0) ∧
    (opField (dataField 0x0000000000000004#64)).toNat ≥ 4 ∧
    (kindField 0x2000000001000001#64 = 2 ∧
      (addrField 0x2000000001000001#64).toNat ≥ State.reset.cfg.memSize) := by
  refine ⟨fun _ => rfl, ?_⟩
  and_intros <;> decide

/-! ### Witnesses: a step and its frame -/

theorem witness_StepRunsTheNextArrival :
    State.reset.stream = [] ∧
    ({ State.reset with stream := [.tick] } : State).stream = .tick :: [] ∧
    ({ State.reset with stream := [.host 0x1000000100000000#64] } : State).stream =
      .host 0x1000000100000000#64 :: [] ∧
    decode 0x1000000100000000#64 = .instr .rdSrc ∧ Instr.rdSrc ≠ .tick := by decide

theorem witness_ListedWordIsTheNextOperation :
    decodeTableWord 64 0x4000000000000000 = some .tick ∧
    decodeTableWord 64 0x0000000112340010 = some (.wrSrc 0x12340010) := by decide

/-- A step that is refused, one that is not, and one from a state that carries the mark. -/
theorem witness_RefusedStepChangesNothingElse :
    (∃ t, step (State.reset.withFetchWord 64 0x5000000000000000) = .next t ∧ t.refused = true) ∧
    (∃ t, step (State.reset.withFetchWord 64 0x0000000112340010) = .next t ∧ t.refused = false) ∧
    ∃ t, step { State.reset with refused := true, reasons := [.reservedEncoding] } = .next t :=
  ⟨⟨_, rfl, rfl⟩, ⟨_, rfl, rfl⟩, _, rfl⟩

theorem witness_OnlyStartAndTickChangeTheFramerContext :
    (∃ t, exec (.memWrite 0x82 0x11) sending = .next t) ∧
    Instr.memWrite 0x82 0x11 ≠ .cmdStart ∧ Instr.memWrite 0x82 0x11 ≠ .tick :=
  ⟨⟨_, rfl⟩, by decide, by decide⟩

theorem witness_StatusIsWrittenByCodecCommandsOnly :
    (∃ t, exec (.cmdEncode 0b11) State.reset = .next t) ∧
    (∃ t, exec (.cmdDecode 0b00) State.reset = .next t) ∧
    (∃ t, exec .tick State.reset = .next t) ∧
    (∀ std, Instr.tick ≠ .cmdEncode std ∧ Instr.tick ≠ .cmdDecode std) :=
  ⟨⟨_, rfl⟩, ⟨_, rfl⟩, ⟨_, rfl⟩, by decide⟩

theorem witness_OperandRegistersAreWrittenByTheirWritesOnly :
    (∃ t, exec .cmdStart sending = .next t) ∧ (∀ d, Instr.cmdStart ≠ .wrSrc d) ∧
    (∀ d, Instr.cmdStart ≠ .wrDst d) ∧ (∀ d, Instr.cmdStart ≠ .wrLen d) :=
  ⟨⟨_, rfl⟩, nofun, nofun, nofun⟩

/-- C1: the two bytes stored to, and the addresses beside them. -/
theorem witness_BytesOutsideTheStoredOnesAreUnchanged :
    (∃ t, exec (.cmdEncode 0b00) (withOperands 0x10 0x20 1 [(0x10, 0xAA)]) = .next t) ∧
    Memory.wf (withOperands 0x10 0x20 1 [(0x10, 0xAA)]).buf = true ∧
    ¬ storesTo (.cmdEncode 0b00) (withOperands 0x10 0x20 1 [(0x10, 0xAA)]) 0x1F ∧
    storesTo (.cmdEncode 0b00) (withOperands 0x10 0x20 1 [(0x10, 0xAA)]) 0x20 ∧
    storesTo (.cmdEncode 0b00) (withOperands 0x10 0x20 1 [(0x10, 0xAA)]) 0x21 ∧
    ¬ storesTo (.cmdEncode 0b00) (withOperands 0x10 0x20 1 [(0x10, 0xAA)]) 0x22 := by
  refine ⟨⟨_, rfl⟩, by decide, ?_, ?_, ?_, ?_⟩ <;> simp only [storesTo] <;> decide

theorem witness_LineIsTheLastLevelATickWrote :
    (∃ t, exec .tick sending = .next t) ∧ sending.phase ≠ .idle ∧
    (∃ t, exec .tick State.reset = .next t) ∧ State.reset.phase = .idle :=
  ⟨⟨_, rfl⟩, by decide, ⟨_, rfl⟩, rfl⟩

theorem witness_DoneIsSetByCompletionAndClearedByStart :
    (∃ t, exec .tick (inStop 3) = .next t ∧ (inStop 3).phase = .stop ∧ t.phase = .idle) ∧
    (∃ t, exec .cmdStart { State.reset with done := true } = .next t ∧ t.phase = .preamble) ∧
    (∃ t, exec .tick (inStop 2) = .next t ∧ t.phase = .stop) :=
  ⟨⟨_, rfl, rfl, rfl⟩, ⟨_, rfl, rfl⟩, _, rfl, rfl⟩

/-! ### Witnesses: the codec -/

theorem witness_Enc8BitsAreTheSymbols : (0 : Nat) < 8 ∧ (7 : Nat) < 8 := by decide

theorem witness_Dec16TakesExactlyTheEncodedChunks :
    dec16 .ieee 0xA9A6#16 = some 0x12#8 ∧ dec16 .thomas 0xA9A6#16 = some 0xED#8 := by decide

theorem witness_CodecSequenceLaws :
    encodeSeq [0x12, 0xA5] 0b00 = (.ok, [0xA9, 0xA6, 0x66, 0x99]) ∧
    [0x12#8].length % 2 = 1 ∧ ([] : List Byte).length % 2 = 0 := by decide

/-- An odd length; an unrecognised standard; a bad symbol in the last place (S12); none (S13). -/
theorem witness_DecodeStatusIsDecidedInOrder :
    [0x12#8].length % 2 = 1 ∧ [0x66#8, 0x67#8].length % 2 = 0 ∧
    symbolAt (0x66#8 ++ 0x67#8) 0 = 0b11#2 ∧
    (∀ k < 8, symbolAt (0x66#8 ++ 0x66#8) k ≠ 0b00#2 ∧ symbolAt (0x66#8 ++ 0x66#8) k ≠ 0b11#2) := by
  decide

/-- C9 (one byte past the end) and C3 (exactly at the end); C10; C5; C17; C1 and C2 (disjoint by nothing). -/
theorem witness_EncodeCommandDoesWhatR108Says :
    ¬ (0xFFFF + 2 * 1 ≤ State.reset.cfg.memSize) ∧ 0xFFFE + 2 * 1 ≤ State.reset.cfg.memSize ∧
    RegionsOverlap 0x10 2 0x11 4 ∧ ¬ RegionsOverlap 0x10 2 0x12 4 ∧
    State.WritesActiveFrame (inPreamble 0) 0x21 2 ∧ ¬ State.WritesActiveFrame (inPreamble 0) 0x22 2 ∧
    Memory.wf (inPreamble 0).buf = true ∧
    ((0b00#2 : BitVec 2) = 0b00#2 ∧ Standard.ieee = Standard.ieee) := by
  simp only [RegionsOverlap, State.WritesActiveFrame]
  decide

/-- C15, C16, C14, S10, C13, C12 with a frame beside and over the destination. -/
theorem witness_DecodeCommandDoesWhatR109Says :
    ¬ (0xFFFF + 3 ≤ State.reset.cfg.memSize) ∧ 0xFFFE + 2 ≤ State.reset.cfg.memSize ∧
    RegionsOverlap 0x20 2 0x21 1 ∧ ¬ RegionsOverlap 0x20 2 0x22 1 ∧
    3 % 2 = 1 ∧ dec16 .ieee 0x6667#16 = none ∧ dec16 .ieee 0x6666#16 ≠ none ∧
    State.WritesActiveFrame (inPreamble 0) 0x21 1 ∧ ¬ State.WritesActiveFrame (inPreamble 0) 0x22 1 ∧
    ((inPreamble 0).readByte 0x20 ++ (inPreamble 0).readByte 0x21 = 0x6666#16) := by
  simp only [RegionsOverlap, State.WritesActiveFrame]
  decide

theorem witness_DecodeCommandRestoresAnEncodedPayload :
    Memory.wf (withOperands 0x10 0x20 1 [(0x10, 0xAA)]).buf = true ∧
    ∃ t u v : State,
      exec (.cmdEncode 0b00) (withOperands 0x10 0x20 1 [(0x10, 0xAA)]) = .next t ∧
      t.refused = false ∧ t.status = .ok ∧
      u = { t with src := 0x20, len := u.len, dst := 0x30 } ∧ u.len.toNat = 2 * 1 ∧
      exec (.cmdDecode 0b00) u = .next v ∧ v.refused = false := by
  refine ⟨by decide, _, { (withOperands 0x20 0x30 2 [(0x10, 0xAA), (0x20, 0x66), (0x21, 0x66)]) with status := .ok },
    _, rfl, ?_, ?_, ?_, ?_, rfl, ?_⟩ <;> decide

/-! ### Witnesses: the framer -/

/-- F5; F8 and F9; F10. -/
theorem witness_StartDoesWhatR112Says :
    sending.phase ≠ .idle ∧
    (withOperands 0x20 0 257 []).phase = .idle ∧
    (withOperands 0x20 0 257 []).len.toNat > State.reset.cfg.maxFrameLen ∧
    (withOperands 0xFFFF 0 2 []).src.toNat + (withOperands 0xFFFF 0 2 []).len.toNat >
      State.reset.cfg.memSize ∧
    (withOperands 0xFF00 0 256 []).len.toNat ≤ State.reset.cfg.maxFrameLen ∧
    (withOperands 0xFF00 0 256 []).src.toNat + (withOperands 0xFF00 0 256 []).len.toNat ≤
      State.reset.cfg.memSize := by decide

theorem witness_IdleTicksChangeNothing : State.reset.phase = .idle := by decide

theorem witness_PreambleTickDoesWhatR115Says :
    (inPreamble 5).phase = .preamble ∧ (inPreamble 5).preCnt.toNat < (inPreamble 5).cfg.preamble.length ∧
    (inPreamble 5).preCnt.toNat + 1 ≠ (inPreamble 5).cfg.preambleLen ∧
    (inPreamble 6).preCnt.toNat + 1 = (inPreamble 6).cfg.preambleLen ∧
    (inPreamble 6).frameLen.toNat ≠ 0 ∧
    ({ inPreamble 6 with frameLen := 0 } : State).frameLen.toNat = 0 := by decide

theorem witness_PayloadTickDoesWhatR116Says :
    (sending.Inv ∧ sending.phase = .payload ∧ sending.bitIdx.toNat < 7) ∧
    (endOfByte.Inv ∧ endOfByte.bitIdx.toNat = 7 ∧ endOfByte.byteIdx.toNat + 1 ≠ endOfByte.frameLen.toNat) ∧
    (endOfFrame.Inv ∧ endOfFrame.bitIdx.toNat = 7 ∧
      endOfFrame.byteIdx.toNat + 1 = endOfFrame.frameLen.toNat) :=
  ⟨⟨sending_inv, by decide, by decide⟩, ⟨endOfByte_inv, by decide, by decide⟩,
    endOfFrame_inv, by decide, by decide⟩

theorem witness_StopTickDoesWhatR117Says :
    (inStop 2).phase = .stop ∧ (inStop 2).stopCnt.toNat + 1 ≠ (inStop 2).cfg.stopLen ∧
    (inStop 3).stopCnt.toNat < (inStop 3).cfg.stopLen ∧
    (inStop 3).stopCnt.toNat + 1 = (inStop 3).cfg.stopLen := by decide

theorem witness_TickNeitherReadsNorWritesTheCodecRegisters : ∃ t, exec .tick sending = .next t := ⟨_, rfl⟩

/-- A memory that holds the current frame byte and nothing else of `sending`'s. -/
theorem witness_FramerReadsAtMostOneByte :
    (∃ t, exec .tick sending = .next t) ∧ sending.phase = .payload ∧
    Memory.readByte [(0x80, 0x55)] sending.framePos = sending.readByte sending.framePos ∧
    (∃ t, exec .cmdStart State.reset = .next t) :=
  ⟨⟨_, rfl⟩, rfl, by decide, _, rfl⟩

theorem witness_EmptyFrameHasNoPayload :
    (withOperands 0xFFFF 0 0 []).phase = .idle ∧ (withOperands 0xFFFF 0 0 []).len.toNat = 0 ∧
    (withOperands 0xFFFF 0 0 []).src.toNat < (withOperands 0xFFFF 0 0 []).cfg.memSize ∧
    0 < State.reset.cfg.preambleLen + State.reset.cfg.stopLen := by decide

theorem witness_TransmissionTakesItsTicks :
    ∃ u, exec .cmdStart (withOperands 0x20 0 2 [(0x20, 0x66), (0x21, 0x66)]) = .next u ∧
      u.phase = .preamble := ⟨_, rfl, rfl⟩

theorem witness_TransmissionSendsItsLevels :
    ∃ u, exec .cmdStart (withOperands 0xFF00 0 256 []) = .next u ∧ u.phase = .preamble :=
  ⟨_, rfl, rfl⟩

/-- The smallest configuration: one preamble bit, one stop bit. -/
def smallConfig : Config where
  aw := 4
  maxFrameLen := 1
  preamble := [true]
  stopLen := 1
  legal := by decide

/-- Idle in the smallest configuration, an empty frame at 3. -/
def smallIdle : State := { State.initial smallConfig [(3, 0x66)] with src := 3 }

theorem smallIdle_inv : smallIdle.Inv where
  registers := by constructor <;> decide
  bufCanonical := by decide
  bufWithin := by decide
  status := by decide
  refusals := by decide
  framer :=
    { idle := fun _ => ⟨by decide, by decide, by decide, .inl (by decide), .inl (by decide)⟩
      preamble := fun h => absurd h (by decide)
      payload := fun h => absurd h (by decide)
      stop := fun h => absurd h (by decide)
      active := fun h => absurd h (by decide) }

/-- Two ticks with a write, a read and another START between them. -/
theorem witness_TransmissionIsUnaffectedByTheHost :
    smallIdle.Inv ∧ smallIdle.refused = false ∧ smallIdle.phase = .idle ∧
    ∃ u v, exec .cmdStart smallIdle = .next u ∧ u.phase = .preamble ∧
      [Instr.memWrite 3 0x11, .tick, .cmdStart, .rdBitIdx, .tick].count .tick = u.transmissionTicks ∧
      runInstrs [Instr.memWrite 3 0x11, .tick, .cmdStart, .rdBitIdx, .tick] u = .next v ∧
      v.refused = false :=
  ⟨smallIdle_inv, rfl, rfl, _, _, rfl, rfl, by decide, rfl, rfl⟩

/-- The first and the last byte of the frame, and the bytes beside it. -/
theorem witness_ActiveFrameBytesNeverChange :
    Memory.wf sending.buf = true ∧ (∃ t, exec (.memWrite 0x81 0x00) sending = .next t) ∧
    sending.inActiveFrame 0x80 ∧ sending.inActiveFrame 0x81 ∧ ¬ sending.inActiveFrame 0x7F ∧
    ¬ sending.inActiveFrame 0x82 := by
  refine ⟨by decide, ⟨_, rfl⟩, ?_, ?_, ?_, ?_⟩ <;> simp only [State.inActiveFrame] <;> decide

theorem witness_CodecCommandAndTickCommute :
    decodingActive.Inv ∧ decodingActive.refused = false ∧
    ∃ t u, runInstrs [.cmdDecode 0b00, .tick] decodingActive = .next t ∧ t.refused = false ∧
      runInstrs [.tick, .cmdDecode 0b00] decodingActive = .next u :=
  ⟨decodingActive_inv, rfl, _, _, rfl, rfl, rfl⟩

/-! ### Witnesses: host access -/

theorem witness_ReservedRegisterBitsReadZero : sending.Inv ∧ sending.cfg.aw ≤ 16 :=
  ⟨sending_inv, by decide⟩

theorem witness_MemWriteDoesWhatR143Says :
    Memory.wf sending.buf = true ∧
    sending.cfg.memSize ≤ (0x10000#32).toNat ∧
    ((0x81#32).toNat < sending.cfg.memSize ∧ sending.inActiveFrame (0x81#32).toNat) ∧
    ((0x82#32).toNat < sending.cfg.memSize ∧ ¬ sending.inActiveFrame (0x82#32).toNat) ∧
    ((0xFFFF#32).toNat < sending.cfg.memSize ∧ ¬ sending.inActiveFrame (0xFFFF#32).toNat) := by
  simp only [State.inActiveFrame]
  decide

theorem witness_MemReadDoesWhatR144Says :
    sending.cfg.memSize ≤ (0x10000#32).toNat ∧ (0xFFFF#32).toNat < sending.cfg.memSize ∧
    (∀ c ∈ sending.buf, c.1 ≠ (0xFFFF#32).toNat) ∧ (0x81#32).toNat < sending.cfg.memSize := by decide

theorem witness_ReadReturnsTheLastByteWritten :
    Memory.wf sending.buf = true ∧ sending.refused = false ∧
    (∃ t u, exec (.memWrite 0x82 0x11) sending = .next t ∧ t.refused = false ∧
      runInstrs [.tick, .memWrite 0x83 0x22, .cmdStart] t = .next u) ∧
    (∀ i ∈ [Instr.tick, .memWrite 0x83 0x22, .cmdStart], ∀ std, i ≠ .cmdEncode std ∧ i ≠ .cmdDecode std) ∧
    (∀ i ∈ [Instr.tick, .memWrite 0x83 0x22, .cmdStart], ∀ x, i ≠ .memWrite 0x82 x) := by
  refine ⟨by decide, rfl, ⟨_, _, rfl, rfl, rfl⟩, by decide, ?_⟩
  simp

theorem witness_WritesAreIdempotent :
    Memory.wf sending.buf = true ∧ sending.refused = false ∧
    (∃ t, exec (.wrLen 0xFFFFFFFF) sending = .next t ∧ t.refused = false) ∧
    (∃ t, exec (.memWrite 0x82 0x11) sending = .next t ∧ t.refused = false) :=
  ⟨by decide, rfl, ⟨_, rfl, rfl⟩, _, rfl, rfl⟩

/-! ### Witnesses and tests: reset and the ports -/

/-- An edge with a tick and a host transaction. -/
def bothEdge (w : TxnWord) : Edge := ⟨false, true, true, w⟩

/-- The next block, if there is one. -/
def nextBlock (o : Host.Outcome Block Fault Refusal) : Option Block :=
  match o with
  | .next b => some b
  | .fault _ => none
  | .refused _ => none

/-- E1: the last Stop tick and `start` on one edge. -/
theorem test_edge_E1 :
    (nextBlock ((Block.ofCore { inStop 3 with src := 0x20, len := 2 }).edge (bothEdge 0x3))).map
        (fun r => (r.core.phase, r.core.done, r.doneO, r.core.events)) =
      some (.preamble, false, true, [.line false, .done]) := by decide

/-- E3: the last Preamble tick and a read of FRAMER_STATUS on one edge. -/
theorem test_edge_E3 :
    (nextBlock ((Block.ofCore (inPreamble 6)).edge (bothEdge 0x1000000500000000))).map
        (fun r => (r.core.phase, r.hostRead, r.lineO)) =
      some (.payload, some 0xA, true) := by decide

/-- R72: at a reset edge no tick and no host transaction is processed. -/
theorem test_edge_reset :
    (nextBlock ((Block.ofCore sending).edge ⟨true, true, true, 0x0000000112340010⟩)).map
        (fun r => (r.core.phase, r.core.src, r.core.buf, r.core.events)) =
      some (.idle, 0, [(0x80, 0x55), (0x81, 0x56)], []) := by decide

theorem witness_ResetEdgeSetsTheResetValues :
    (⟨true, true, true, 0⟩ : Edge).rst = true ∧ (Block.ofCore sending).busy = 0 ∧
    (⟨false, false, false, 0⟩ : Edge).rst = false := by decide

/-- An ENCODE of one byte to 0x20 that still holds `host_ready` at 0. -/
def encoding : Block :=
  { Block.ofCore (withOperands 0x10 0x20 1 [(0x10, 0xAA), (0x20, 0x66), (0x21, 0x66)]) with
    busy := 1, writing := ⟨0x20, 2⟩ }

/-- A destination byte and another; and the memory before that ENCODE. -/
theorem witness_CutCommandLeavesItsDestinationBytesOpen :
    Memory.wf encoding.core.buf = true ∧ encoding.busy > 0 ∧
    (∃ r, encoding.edge ⟨true, false, false, 0⟩ = .next r) ∧
    (encoding.writing.base ≤ 0x21 ∧ 0x21 < encoding.writing.base + encoding.writing.size) ∧
    ¬ (encoding.writing.base ≤ 0x22 ∧ 0x22 < encoding.writing.base + encoding.writing.size) ∧
    Memory.wf [(0x10, 0xAA)] = true :=
  ⟨by decide, by decide, ⟨_, rfl⟩, by decide, by decide, by decide⟩

/-- R166: a reset that cuts an ENCODE keeps the bytes outside its destination. -/
theorem test_edge_reset_cuts_encode :
    (nextBlock (encoding.edge ⟨true, true, true, 0⟩)).map
        (fun r => (r.core.readByte 0x10, r.core.buf.map (·.1), r.busy, r.cuts)) =
      some (0xAA, [0x10, 0x20, 0x21], 0, 1) := by decide

theorem witness_TickComesBeforeTheHostOnOneEdge :
    decodeHost 0x3 = .instr .cmdStart ∧ (Block.ofCore (inStop 3)).busy = 0 ∧
    (∃ c, exec .tick (inStop 3) = .next c ∧ c.frameTooLarge = false) ∧
    ((inStop 3).phase = .stop ∧ (inStop 3).stopCnt.toNat + 1 = (inStop 3).cfg.stopLen) ∧
    ((inPreamble 6).phase = .preamble ∧ ∃ c, exec .tick (inPreamble 6) = .next c) ∧
    (decodeHost 0x1000000700000000 = .instr .rdBitIdx ∧
      ∃ c d, exec .tick sending = .next c ∧ exec .rdBitIdx c = .next d ∧
        d.events = c.events ++ [.read 2]) :=
  ⟨by decide, by decide, ⟨_, rfl, by decide⟩, by decide, ⟨by decide, _, rfl⟩, by decide, _, _, rfl, rfl,
    by decide⟩

theorem witness_LineAndDoneOutputs :
    (∃ r, (Block.ofCore (inStop 3)).edge (bothEdge 0x3) = .next r) ∧
    (∃ r, (Block.ofCore sending).edge ⟨false, false, true, 0x3⟩ = .next r) ∧
    (State.reset.phase = .idle ∧
      ∃ r, (Block.ofCore State.reset).edge ⟨false, true, false, 0x0⟩ = .next r) :=
  ⟨⟨_, rfl⟩, ⟨_, rfl⟩, rfl, _, rfl⟩

/-- Held by a codec command; no transaction offered; a read and an ENCODE accepted. -/
theorem witness_HostPortHandshake :
    (encoding.busy ≠ 0 ∧ (∃ r, encoding.edge ⟨false, false, true, 0x3⟩ = .next r) ∧
      ∃ r, encoding.edge ⟨false, true, true, 0x3⟩ = .next r) ∧
    ((Block.ofCore sending).busy = 0 ∧
      ∃ r, (Block.ofCore sending).edge ⟨false, true, false, 0⟩ = .next r) ∧
    (isCodecWord 0x1000000700000000 = false ∧
      ∃ r, (Block.ofCore sending).edge ⟨false, false, true, 0x1000000700000000⟩ = .next r) ∧
    (isCodecWord 0x1 = true ∧ ∃ r, (Block.ofCore State.reset).edge ⟨false, false, true, 0x1⟩ = .next r) :=
  ⟨⟨by decide, ⟨_, rfl⟩, _, rfl⟩, ⟨by decide, _, rfl⟩, ⟨by decide, _, rfl⟩, by decide, _, rfl⟩

/-- Nothing accepted; an ENCODE, a DECODE, a read, and an ENCODE refused for overlapping regions. -/
theorem witness_AcceptedCommandRecordsItsDestination :
    (encoding.busy ≠ 0 ∧ ∃ r, encoding.edge ⟨false, false, true, 0x3⟩ = .next r) ∧
    (decodeHost 0x1 = .instr (.cmdEncode 0) ∧
      ∃ r, (Block.ofCore encoding.core).edge ⟨false, false, true, 0x1⟩ = .next r ∧
        r.core.reasons = encoding.core.reasons) ∧
    (decodeHost 0x2 = .instr (.cmdDecode 0) ∧
      ∃ r, (Block.ofCore State.reset).edge ⟨false, false, true, 0x2⟩ = .next r ∧
        r.core.reasons = State.reset.reasons) ∧
    (isCodecWord 0x1000000700000000 = false ∧
      ∃ c r, exec .tick sending = .next c ∧
        (Block.ofCore sending).edge ⟨false, true, true, 0x1000000700000000⟩ = .next r) ∧
    (∃ r, (Block.ofCore (withOperands 0x10 0x10 1 [])).edge ⟨false, false, true, 0x1⟩ = .next r ∧
        r.core.reasons ≠ (withOperands 0x10 0x10 1 []).reasons) :=
  ⟨⟨by decide, _, rfl⟩, ⟨by decide, _, rfl, by decide⟩, ⟨by decide, _, rfl, by decide⟩,
    ⟨by decide, _, _, rfl, rfl⟩, _, rfl, by decide⟩

/-! ### Witnesses: invariants -/

theorem witness_StepKeepsTheInvariant : sending.Inv ∧ ∃ t, step sending = .next t :=
  ⟨sending_inv, _, rfl⟩

theorem witness_InitialStatesMeetTheInvariant :
    Memory.wf [(0, 0x55), (0xFFFF, 0x56)] = true ∧
      Memory.within Config.test.memSize [(0, 0x55), (0xFFFF, 0x56)] = true := by decide

theorem witness_ReachableFramerContextsAreLegal :
    Memory.wf [(3, 0x66)] = true ∧ Memory.within smallConfig.memSize [(3, 0x66)] = true ∧
    ∃ t, core.run 2 { State.initial smallConfig [(3, 0x66)] with stream := [.host 0x3, .tick] } =
      .next t := ⟨by decide, by decide, _, rfl⟩

end Sys2Proof.Tests
end

section
/-! PROOFS. Scope (spec/00_scope.md): which configurations are built (R20), which operation a step runs (R11, R12), and
that every step answers a next state in which nothing but the named effects has changed (R13, R22, R46). -/

namespace Sys2Proof

/-! ### Configurations (R15 to R20) -/

theorem configInRange_iff (aw maxFrameLen p s : Nat) :
    configInRange aw maxFrameLen p s = true ↔
      1 ≤ aw ∧ aw ≤ 32 ∧ maxFrameLen ≤ 2 ^ aw - 1 ∧ 1 ≤ p ∧ p ≤ 65535 ∧ 1 ≤ s ∧ s ≤ 65535 := by
  simp only [configInRange, Bool.and_eq_true, decide_eq_true_eq, and_assoc]

theorem Config.build_isSome_iff (aw maxFrameLen p : Nat) (pattern : List Bool) (s : Nat) :
    (Config.build aw maxFrameLen p pattern s).isSome = true ↔
      configInRange aw maxFrameLen pattern.length s = true ∧ pattern.length = p := by
  unfold Config.build
  split
  · next hr =>
    rw [and_iff_right hr]
    split <;> simpa
  · next hr => simp [hr]

/-- Settles O53: the range check and the length check of `Config.build` are the ranges of R15 to R18. -/
theorem onlyLegalConfigurationsAreBuilt : Obligations.OnlyLegalConfigurationsAreBuilt := by
  intro aw maxLen p pattern s
  rw [Config.build_isSome_iff, configInRange_iff]
  constructor
  · rintro ⟨⟨haw, haw', hlen, hp, hp', hs, hs'⟩, rfl⟩
    exact ⟨haw, haw', hlen, hp, hp', rfl, hs, hs'⟩
  · rintro ⟨haw, haw', hlen, hp, hp', rfl, hs, hs'⟩
    exact ⟨⟨haw, haw', hlen, hp, hp', hs, hs'⟩, rfl⟩

/-! ### The words of a listing (R77) -/

theorem decodeTableWord_eq_some (nbits w : Nat) (i : Instr) :
    decodeTableWord nbits w = some i ↔ decode (BitVec.ofNat 64 (w % 2 ^ nbits)) = .instr i := by
  unfold decodeTableWord
  split
  · next j hj => simp [hj]
  · next r hr => simp [hr]

end Sys2Proof

namespace Sys2Proof.Machine

/-! ### The operation a step runs -/

theorem runArrival_host_of_decode (w : TxnWord) (i : Instr) (s : State) (h : decode w = .instr i)
    (hi : i ≠ .tick) : runArrival (.host w) s = exec i s := by
  simp only [runArrival, fetch, decodeHost_of_decode w i h hi]

/-- In a listing the TICK word is a tick of the TickSource, not a host word (R83). -/
theorem runArrival_ofListing_of_decode (w : TxnWord) (i : Instr) (s : State) (h : decode w = .instr i) :
    runArrival (Arrival.ofListing w) s = exec i s := by
  by_cases hw : w = tickWord
  · have hi : i = .tick := by
      rw [(decode_eq_tick w).mpr hw] at h
      cases h
      rfl
    rw [Arrival.ofListing, if_pos hw, hi, runArrival_tick, exec_tick]
  · have hi : i ≠ .tick := fun hi => hw ((decode_eq_tick w).mp (hi ▸ h))
    rw [Arrival.ofListing, if_neg hw, runArrival_host_of_decode w i s h hi]

/-- Settles O7: a step is `runArrival` of the first arrival, and an arrival runs the operation it decodes to. -/
theorem stepRunsTheNextArrival : Obligations.StepRunsTheNextArrival := by
  intro s rest
  refine ⟨step_nil s, fun hs => ?_, fun w i hs hd hi => ?_⟩
  · rw [step_cons s _ rest hs, runArrival_tick, exec_tick]
  · rw [step_cons s _ rest hs, runArrival_host_of_decode w i _ hd hi]

/-- Settles O8: taking the listing word off the stream again gives back the state it was put into. -/
theorem listedWordIsTheNextOperation : Obligations.ListedWordIsTheNextOperation := by
  intro s nbits w i h
  have hd := (decodeTableWord_eq_some nbits w i).mp h
  calc step (s.withFetchWord nbits w)
      = runArrival (Arrival.ofListing (BitVec.ofNat 64 (w % 2 ^ nbits))) s :=
        step_cons (s.withFetchWord nbits w) _ s.stream rfl
    _ = exec i s := runArrival_ofListing_of_decode _ i s hd

/-! ### What an operation can do to the record of a run -/

/-- What the operation that takes `s` to `t` does to the mark, the reasons, the events, the stream and the parameters:
it is carried out, or it is refused and then is nothing but the refusal (R13, R22, R46). -/
inductive OpEffect (s : State) : State → Prop where
  | carriedOut {t : State} (refused : t.refused = s.refused) (reasons : t.reasons = s.reasons)
      (events : s.events <+: t.events) (stream : t.stream = s.stream) (cfg : t.cfg = s.cfg) : OpEffect s t
  | refused (r : Reason) : OpEffect s (s.refuse r)

/-- An operation that touches none of the five is carried out. -/
theorem OpEffect.of_eq {s t : State} (refused : t.refused = s.refused) (reasons : t.reasons = s.reasons)
    (events : t.events = s.events) (stream : t.stream = s.stream) (cfg : t.cfg = s.cfg) : OpEffect s t :=
  .carriedOut refused reasons (events ▸ List.prefix_rfl) stream cfg

theorem OpEffect.emit (s : State) (e : Event) : OpEffect s (s.emit e) :=
  .carriedOut rfl rfl (List.prefix_append _ _) rfl rfl

theorem State.events_prefix_tickPreamble (s : State) : s.events <+: s.tickPreamble.events := by
  rcases s.tickPreamble_cases with ⟨-, h⟩ | ⟨-, -, h⟩ | ⟨-, -, h⟩ <;> simp [h]

theorem State.events_prefix_tickPayload (s : State) : s.events <+: s.tickPayload.events := by
  rcases s.tickPayload_cases with ⟨-, h⟩ | ⟨-, -, h⟩ | ⟨-, -, h⟩ <;> simp [h]

theorem State.events_prefix_tickStop (s : State) : s.events <+: s.tickStop.events := by
  rcases s.tickStop_cases with ⟨-, h⟩ | ⟨-, h⟩ <;> simp [h]

theorem State.events_prefix_tickAction (s : State) : s.events <+: s.tickAction.events := by
  cases hp : s.phase with
  | idle => rw [s.tickAction_idle hp]
  | preamble => rw [s.tickAction_preamble hp]; exact s.events_prefix_tickPreamble
  | payload => rw [s.tickAction_payload hp]; exact s.events_prefix_tickPayload
  | stop => rw [s.tickAction_stop hp]; exact s.events_prefix_tickStop

theorem OpEffect.tickAction (s : State) : OpEffect s s.tickAction :=
  .carriedOut (by simp) (by simp) s.events_prefix_tickAction (by simp) (by simp)

theorem OpEffect.codecCommand (s : State) (outLen : Nat) (result : List Byte → Status × List Byte) :
    OpEffect s (s.codecCommand outLen result) := by
  rcases s.codecCommand_cases outLen result with ⟨r, -, h⟩ | ⟨st, out, -, -, h⟩ | ⟨out, -, -, -, h⟩ <;> rw [h]
  · exact .refused r
  · exact .of_eq rfl rfl rfl rfl rfl
  · exact .of_eq rfl rfl rfl rfl rfl

/-- Every operation answers a next state; there is no other outcome (R13). -/
theorem exec_answers (i : Instr) (s : State) : ∃ t, exec i s = .next t ∧ OpEffect s t := by
  cases i with
  | cmdEncode std => exact ⟨_, rfl, .codecCommand s _ _⟩
  | cmdDecode std => exact ⟨_, rfl, .codecCommand s _ _⟩
  | cmdStart =>
    rcases execStart_cases s with ⟨-, h⟩ | ⟨-, -, h⟩ | ⟨-, -, h⟩
    · exact ⟨_, h, .of_eq rfl rfl rfl rfl rfl⟩
    · exact ⟨_, h, .refused _⟩
    · exact ⟨_, h, .of_eq rfl rfl rfl rfl rfl⟩
  | wrSrc data | wrDst data | wrLen data => exact ⟨_, rfl, .of_eq rfl rfl rfl rfl rfl⟩
  | rdSrc | rdDst | rdLen | rdCodecStatus | rdFramerStatus | rdByteIdx | rdBitIdx | rdCounters | rdFrameBase
  | rdFrameLen => exact ⟨_, rfl, .emit s _⟩
  | memWrite addr data =>
    rcases execMemWrite_cases addr data s with ⟨-, h⟩ | ⟨-, -, h⟩ | ⟨-, -, h⟩
    · exact ⟨_, h, .refused _⟩
    · exact ⟨_, h, .refused _⟩
    · exact ⟨_, h, .of_eq rfl rfl rfl rfl rfl⟩
  | memRead addr =>
    rcases execMemRead_cases addr s with ⟨-, h⟩ | ⟨-, h⟩
    · exact ⟨_, h, .refused _⟩
    · exact ⟨_, h, .emit s _⟩
  | tick => exact ⟨_, exec_tick s, .tickAction s⟩

/-- A word that names no operation is refused as an operation is (R91). -/
theorem runArrival_answers (a : Arrival) (s : State) : ∃ t, runArrival a s = .next t ∧ OpEffect s t := by
  unfold runArrival
  split
  · next i _ => exact exec_answers i s
  · exact ⟨_, rfl, .refused _⟩

/-- A step takes its arrival off the stream and does to the rest what an operation can do. -/
theorem step_answers (s : State) :
    ∃ t, step s = .next t ∧ OpEffect { s with stream := s.stream.tail } t := by
  cases hs : s.stream with
  | nil => exact ⟨s, step_nil s hs, .of_eq rfl rfl rfl hs rfl⟩
  | cons a rest =>
    rw [step_cons s a rest hs]
    exact runArrival_answers a _

/-- Settles O9: every arm of `exec`, and so every step, answers a next state. -/
theorem everyStepAnswersANextState : Obligations.EveryStepAnswersANextState := by
  refine ⟨fun i s => ?_, fun s => ?_⟩
  · obtain ⟨t, ht, -⟩ := exec_answers i s
    exact ⟨t, ht⟩
  · obtain ⟨t, ht, -⟩ := step_answers s
    exact ⟨t, ht⟩

/-- Settles O10: both kinds of effect, on the state without its arrival, are as R13 and R46 say. -/
theorem refusedStepChangesNothingElse : Obligations.RefusedStepChangesNothingElse := by
  intro s t h
  obtain ⟨t', ht', heffect⟩ := step_answers s
  obtain rfl : t' = t := Host.Outcome.next.inj (ht'.symm.trans h)
  cases heffect with
  | carriedOut refused reasons events stream cfg =>
    exact ⟨.inl ⟨refused, reasons⟩, refused.trans, events, reasons ▸ List.prefix_rfl, stream, cfg⟩
  | refused r =>
    exact ⟨.inr ⟨r, rfl⟩, fun _ => rfl, List.prefix_rfl, List.prefix_append _ _, rfl, rfl⟩

end Sys2Proof.Machine
end

section
/-! PROOFS. The state (spec/10_state.md): everything one operation can do, said once, and from it which operations write
STATUS, the operand registers, LINE, DONE and the FramerContext (R26 to R36). -/

namespace Sys2Proof.Machine

/-! ### Everything an operation can do -/

/-- The operations that return a value with `read(v)` (R22). -/
def isRead : Instr → Bool
  | .rdSrc | .rdDst | .rdLen | .rdCodecStatus | .rdFramerStatus | .rdByteIdx | .rdBitIdx | .rdCounters
  | .rdFrameBase | .rdFrameLen | .memRead _ => true
  | _ => false

/-- The statuses an operation can write to STATUS (R146 to R150); only the codec commands write one. -/
def producedStatuses : Instr → List Status
  | .cmdEncode _ => [.ok, .errorStandard]
  | .cmdDecode _ => [.ok, .errorStandard, .errorSize, .invalidEncode]
  | _ => []

/-- Everything the operation `i` can do to `s`: one constructor per outcome, with the conditions later proofs need. -/
inductive OpResult (s : State) : Instr → State → Prop where
  | codecRefused {i : Instr} {r : Reason} (codec : producedStatuses i ≠ [])
      (reason : r = .regionOutOfRange ∨ r = .regionOverlap ∨ r = .borrowViolation) : OpResult s i (s.refuse r)
  | codecError {i : Instr} {st : Status} (produced : st ∈ producedStatuses i) : OpResult s i (s.setStatus st)
  | codecWrote {i : Instr} {out : List Byte} (produced : Status.ok ∈ producedStatuses i)
      (fits : s.dstAddr + out.length ≤ s.cfg.memSize) :
      OpResult s i ((s.storeBytes s.dstAddr out).setStatus .ok)
  | startIgnored (active : s.phase ≠ .idle) : OpResult s .cmdStart s
  | startRefused (idle : s.phase = .idle) : OpResult s .cmdStart (s.refuse .frameOutOfRange)
  | startAccepted (idle : s.phase = .idle) (fits : s.frameTooLarge = false) : OpResult s .cmdStart s.beginFrame
  | wroteSrc (data : Word) : OpResult s (.wrSrc data) { s with src := keepAw s.cfg.aw data }
  | wroteDst (data : Word) : OpResult s (.wrDst data) { s with dst := keepAw s.cfg.aw data }
  | wroteLen (data : Word) : OpResult s (.wrLen data) { s with len := keepAw s.cfg.aw data }
  | memWriteRefused (addr : Word) (data : Byte) (r : Reason) : OpResult s (.memWrite addr data) (s.refuse r)
  | memWrote (addr : Word) (data : Byte) (fits : addr.toNat < s.cfg.memSize) :
      OpResult s (.memWrite addr data) (s.storeBytes addr.toNat [data])
  | memReadRefused (addr : Word) : OpResult s (.memRead addr) (s.refuse .reservedEncoding)
  | read {i : Instr} (v : Word) (reads : isRead i = true) : OpResult s i (s.emit (.read v))
  | tick : OpResult s .tick s.tickAction

theorem encodeSeq_status_mem (p : List Byte) (std : BitVec 2) :
    (encodeSeq p std).1 ∈ producedStatuses (.cmdEncode std) := by
  unfold encodeSeq
  split <;> simp [producedStatuses]

theorem decodeSeq_status_mem (e : List Byte) (std : BitVec 2) :
    (decodeSeq e std).1 ∈ producedStatuses (.cmdDecode std) := by
  unfold decodeSeq
  split
  · simp [producedStatuses]
  · split
    · simp [producedStatuses]
    · split <;> simp [producedStatuses]

/-- A codec command whose sequence function produces the statuses of `i` does what `i` can do (R106 to R110). -/
theorem OpResult.codecCommand (s : State) (i : Instr) (outLen : Nat) (result : List Byte → Status × List Byte)
    (hst : ∀ xs, (result xs).1 ∈ producedStatuses i)
    (hlen : ∀ out, result (s.buf.readBytes s.srcAddr s.lenBytes) = (.ok, out) → out.length = outLen) :
    OpResult s i (s.codecCommand outLen result) := by
  have hmem := hst (s.buf.readBytes s.srcAddr s.lenBytes)
  rcases s.codecCommand_cases outLen result with ⟨r, hr, h⟩ | ⟨st, out, -, hres, h⟩ | ⟨out, hres, hfit, -, h⟩ <;> rw [h]
  · exact .codecRefused (List.ne_nil_of_mem hmem) hr
  · exact .codecError (by rwa [hres] at hmem)
  · exact .codecWrote (by rwa [hres] at hmem) (by rwa [hlen out hres])

/-- The next state of an operation is one of the results listed for it. -/
theorem exec_result (i : Instr) (s t : State) (h : exec i s = .next t) : OpResult s i t := by
  suffices hr : ∃ u, exec i s = .next u ∧ OpResult s i u by
    obtain ⟨u, hu, hres⟩ := hr
    obtain rfl : u = t := Host.Outcome.next.inj (hu.symm.trans h)
    exact hres
  clear h
  cases i with
  | cmdEncode std =>
    refine ⟨_, rfl, .codecCommand s _ _ _ (fun p => encodeSeq_status_mem p std) fun out hout => ?_⟩
    simpa using length_encodeSeq _ out std hout
  | cmdDecode std =>
    refine ⟨_, rfl, .codecCommand s _ _ _ (fun e => decodeSeq_status_mem e std) fun out hout => ?_⟩
    simpa using length_decodeSeq _ out std hout
  | cmdStart =>
    rcases execStart_cases s with ⟨hp, h⟩ | ⟨hp, -, h⟩ | ⟨hp, hf, h⟩
    · exact ⟨_, h, .startIgnored hp⟩
    · exact ⟨_, h, .startRefused hp⟩
    · exact ⟨_, h, .startAccepted hp hf⟩
  | wrSrc data => exact ⟨_, rfl, .wroteSrc data⟩
  | wrDst data => exact ⟨_, rfl, .wroteDst data⟩
  | wrLen data => exact ⟨_, rfl, .wroteLen data⟩
  | rdSrc | rdDst | rdLen | rdCodecStatus | rdFramerStatus | rdByteIdx | rdBitIdx | rdCounters | rdFrameBase
  | rdFrameLen => exact ⟨_, rfl, .read _ rfl⟩
  | memWrite addr data =>
    rcases execMemWrite_cases addr data s with ⟨-, h⟩ | ⟨-, -, h⟩ | ⟨hlt, -, h⟩
    · exact ⟨_, h, .memWriteRefused addr data _⟩
    · exact ⟨_, h, .memWriteRefused addr data _⟩
    · exact ⟨_, h, .memWrote addr data hlt⟩
  | memRead addr =>
    rcases execMemRead_cases addr s with ⟨-, h⟩ | ⟨-, h⟩
    · exact ⟨_, h, .memReadRefused addr⟩
    · exact ⟨_, h, .read _ rfl⟩
  | tick => exact ⟨_, exec_tick s, .tick⟩

/-! ### The FramerContext, STATUS and the operand registers -/

/-- The framer's own fields are START's and TICK's alone (R26, R35). -/
theorem OpResult.framer_unchanged {i : Instr} {s t : State} (h : OpResult s i t) (hstart : i ≠ .cmdStart)
    (htick : i ≠ .tick) : t.framerContext = s.framerContext ∧ t.done = s.done := by
  cases h with
  | startIgnored | startRefused | startAccepted => exact absurd rfl hstart
  | tick => exact absurd rfl htick
  | _ => exact ⟨rfl, rfl⟩

/-- Settles O11: no result of another operation touches the FramerContext. -/
theorem onlyStartAndTickChangeTheFramerContext : Obligations.OnlyStartAndTickChangeTheFramerContext := by
  intro i s t h hstart htick
  exact ((exec_result i s t h).framer_unchanged hstart htick).1

theorem producedStatuses_of_isRead {i : Instr} (h : isRead i = true) : producedStatuses i = [] := by
  cases i with
  | cmdEncode | cmdDecode => cases h
  | _ => rfl

/-- What an operation that produces a status leaves: one of them in STATUS, or nothing but a refusal (R110, R154). -/
theorem OpResult.status_produced {i : Instr} {s t : State} (h : OpResult s i t) (hi : producedStatuses i ≠ []) :
    t.status ∈ producedStatuses i ∨ t = s.refusedWith .regionOutOfRange ∨ t = s.refusedWith .regionOverlap ∨
      t = s.refusedWith .borrowViolation := by
  cases h with
  | codecRefused _ reason => rcases reason with rfl | rfl | rfl <;> simp [State.refusedWith, State.refuse]
  | codecError produced => exact .inl produced
  | codecWrote produced => exact .inl produced
  | read v reads => exact absurd (producedStatuses_of_isRead reads) hi
  | _ => exact absurd rfl hi

theorem OpResult.status_unchanged {i : Instr} {s t : State} (h : OpResult s i t) (hi : producedStatuses i = []) :
    t.status = s.status := by
  cases h with
  | codecRefused codec => exact absurd hi codec
  | codecError produced => simp [hi] at produced
  | codecWrote produced => simp [hi] at produced
  | tick => exact s.tickAction_status
  | _ => rfl

/-- Settles O12: the statuses a codec command produces are those of its sequence function; no other result writes one. -/
theorem statusIsWrittenByCodecCommandsOnly : Obligations.StatusIsWrittenByCodecCommandsOnly := by
  intro i s t h
  have hres := exec_result i s t h
  refine ⟨?_, ?_, fun hi => hres.status_unchanged ?_⟩
  · rintro std rfl
    simpa [producedStatuses, or_assoc] using hres.status_produced (List.cons_ne_nil _ _)
  · rintro std rfl
    simpa [producedStatuses, or_assoc] using hres.status_produced (List.cons_ne_nil _ _)
  · cases i with
    | cmdEncode std => exact absurd rfl (hi std).1
    | cmdDecode std => exact absurd rfl (hi std).2
    | _ => rfl

/-- Settles O13: the three write results change their own register, and no result changes another. -/
theorem operandRegistersAreWrittenByTheirWritesOnly : Obligations.OperandRegistersAreWrittenByTheirWritesOnly := by
  intro i s t h
  cases exec_result i s t h with
  | wroteSrc data => exact ⟨fun hi => absurd rfl (hi data), fun _ => rfl, fun _ => rfl⟩
  | wroteDst data => exact ⟨fun _ => rfl, fun hi => absurd rfl (hi data), fun _ => rfl⟩
  | wroteLen data => exact ⟨fun _ => rfl, fun _ => rfl, fun hi => absurd rfl (hi data)⟩
  | tick => exact ⟨fun _ => s.tickAction_src, fun _ => s.tickAction_dst, fun _ => s.tickAction_len⟩
  | _ => exact ⟨fun _ => rfl, fun _ => rfl, fun _ => rfl⟩

/-! ### LINE (R36) -/

/-- What is appended to the events is what was emitted (R14). -/
theorem State.emittedSince_of_events {s t : State} {es : List Event} (h : t.events = s.events ++ es) :
    t.emittedSince s = es := by
  rw [State.emittedSince, h, List.drop_left]

@[simp] theorem State.emittedSince_emit (s : State) (e : Event) : (s.emit e).emittedSince s = [e] :=
  State.emittedSince_of_events rfl

theorem lineLevels_emittedSince_of_events {s t : State} (h : t.events = s.events) :
    lineLevels (t.emittedSince s) = [] := by
  rw [State.emittedSince_of_events (h.trans (List.append_nil _).symm)]
  rfl

/-- A tick outside Idle writes one level, which LINE then holds. -/
theorem State.lineLevels_tickAction (s : State) (h : s.phase ≠ .idle) :
    lineLevels (s.tickAction.emittedSince s) = [s.tickAction.line] := by
  cases hp : s.phase with
  | idle => exact absurd hp h
  | preamble =>
    rw [s.tickAction_preamble hp]
    rcases s.tickPreamble_cases with ⟨-, ht⟩ | ⟨-, -, ht⟩ | ⟨-, -, ht⟩ <;>
    · rw [ht, State.emittedSince_of_events (es := [.line s.preambleBit]) rfl]
      rfl
  | payload =>
    rw [s.tickAction_payload hp]
    rcases s.tickPayload_cases with ⟨-, ht⟩ | ⟨-, -, ht⟩ | ⟨-, -, ht⟩ <;>
    · rw [ht, State.emittedSince_of_events (es := [.line s.payloadBit]) rfl]
      rfl
  | stop =>
    rw [s.tickAction_stop hp]
    rcases s.tickStop_cases with ⟨-, ht⟩ | ⟨-, ht⟩
    · rw [ht, State.emittedSince_of_events (es := [.line false]) rfl]
      rfl
    · rw [ht, State.emittedSince_of_events (es := [.line false, .done]) (by simp)]
      rfl

theorem OpResult.line_unchanged {i : Instr} {s t : State} (h : OpResult s i t)
    (hi : ¬ (i = .tick ∧ s.phase ≠ .idle)) : lineLevels (t.emittedSince s) = [] ∧ t.line = s.line := by
  cases h with
  | tick =>
    have hidle : s.phase = .idle := not_not.mp fun hp => hi ⟨rfl, hp⟩
    rw [s.tickAction_idle hidle]
    exact ⟨lineLevels_emittedSince_of_events rfl, rfl⟩
  | read v =>
    rw [s.emittedSince_emit]
    exact ⟨rfl, rfl⟩
  | _ => exact ⟨lineLevels_emittedSince_of_events rfl, rfl⟩

/-- Settles O15: each phase action outside Idle writes the line once; no other result writes it. -/
theorem lineIsTheLastLevelATickWrote : Obligations.LineIsTheLastLevelATickWrote := by
  refine ⟨fun i s t h => ⟨?_, (exec_result i s t h).line_unchanged⟩, fun _ _ => rfl⟩
  rintro ⟨rfl, hp⟩
  obtain rfl : s.tickAction = t := Host.Outcome.next.inj h
  exact s.lineLevels_tickAction hp

/-! ### DONE (R35) -/

/-- Only the tick that ends Stop writes DONE. -/
theorem State.tickAction_done (s : State) :
    s.tickAction.done = if s.phase = .stop ∧ s.tickAction.phase = .idle then true else s.done := by
  cases hp : s.phase with
  | idle => simp [s.tickAction_idle hp]
  | preamble =>
    rw [s.tickAction_preamble hp]
    rcases s.tickPreamble_cases with ⟨-, ht⟩ | ⟨-, -, ht⟩ | ⟨-, -, ht⟩ <;> simp [ht]
  | payload =>
    rw [s.tickAction_payload hp]
    rcases s.tickPayload_cases with ⟨-, ht⟩ | ⟨-, -, ht⟩ | ⟨-, -, ht⟩ <;> simp [ht]
  | stop =>
    rw [s.tickAction_stop hp]
    rcases s.tickStop_cases with ⟨-, ht⟩ | ⟨-, ht⟩ <;> simp [ht, hp]

/-- A START that is not accepted leaves DONE and the phase. -/
theorem OpResult.done_start {s t : State} (h : OpResult s .cmdStart t) :
    t.done = if s.phase = .idle ∧ t.phase = .preamble then false else s.done := by
  cases h with
  | codecRefused codec => exact absurd rfl codec
  | codecError produced => cases produced
  | codecWrote produced => cases produced
  | startIgnored active => simp [active]
  | startRefused idle => simp [idle]
  | startAccepted idle => simp [idle, State.beginFrame]
  | read v reads => cases reads

/-- Settles O16: of the operations only START and TICK write DONE, each in the one case named. -/
theorem doneIsSetByCompletionAndClearedByStart : Obligations.DoneIsSetByCompletionAndClearedByStart := by
  refine ⟨fun i s t h => ?_, fun _ _ => rfl⟩
  have hres := exec_result i s t h
  by_cases htick : i = .tick
  · subst htick
    obtain rfl : s.tickAction = t := Host.Outcome.next.inj h
    rw [s.tickAction_done]
    exact ⟨fun ⟨_, hend⟩ => if_pos hend, nofun, fun hn _ => if_neg fun hend => hn ⟨rfl, hend⟩⟩
  · by_cases hstart : i = .cmdStart
    · subst hstart
      rw [hres.done_start]
      exact ⟨nofun, fun ⟨_, hacc⟩ => if_pos hacc, fun _ hn => if_neg fun hacc => hn ⟨rfl, hacc⟩⟩
    · simp [htick, hstart, (hres.framer_unchanged hstart htick).2]

end Sys2Proof.Machine
end

section
/-! PROOFS. The invariant (spec/10_state.md R49): it holds in every initial state, every operation and every refusal keeps
it, and so every reachable state meets it; and what it says of the registers of AW bits (R27). -/

namespace Sys2Proof.Machine

/-! ### The framer part, one phase at a time -/

theorem FramerInv.of_idle {s : State} (hp : s.phase = .idle) (hc : IdleContext s) : FramerInv s :=
  ⟨fun _ => hc, by simp [hp], by simp [hp], by simp [hp], fun hn => absurd hp hn⟩

theorem FramerInv.of_preamble {s : State} (hp : s.phase = .preamble) (hc : PreambleContext s)
    (ha : ActiveFrameFits s) : FramerInv s :=
  ⟨by simp [hp], fun _ => hc, by simp [hp], by simp [hp], fun _ => ha⟩

theorem FramerInv.of_payload {s : State} (hp : s.phase = .payload) (hc : PayloadContext s)
    (ha : ActiveFrameFits s) : FramerInv s :=
  ⟨by simp [hp], by simp [hp], fun _ => hc, by simp [hp], fun _ => ha⟩

theorem FramerInv.of_stop {s : State} (hp : s.phase = .stop) (hc : StopContext s)
    (ha : ActiveFrameFits s) : FramerInv s :=
  ⟨by simp [hp], by simp [hp], by simp [hp], fun _ => hc, fun _ => ha⟩

/-- R49 speaks of the FramerContext and the parameters only. -/
theorem FramerInv.congr {s t : State} (hs : FramerInv s) (hcfg : t.cfg = s.cfg)
    (hctx : t.framerContext = s.framerContext) : FramerInv t := by
  simp only [State.framerContext, FramerContext.mk.injEq] at hctx
  obtain ⟨hphase, hbyte, hbit, hpre, hstop, hbase, hlen⟩ := hctx
  have hactive (hp : t.phase ≠ .idle) : ActiveFrameFits t := by
    obtain ⟨length, region⟩ := hs.active (hphase ▸ hp)
    constructor <;> simpa only [hcfg, hbase, hlen]
  cases hp : t.phase with
  | idle =>
    obtain ⟨frameBase, frameLen, bitIdx, preCnt, stopCnt⟩ := hs.idle (hphase ▸ hp)
    exact .of_idle hp (by constructor <;> simpa only [hcfg, hbase, hlen, hbit, hpre, hstop])
  | preamble =>
    obtain ⟨preCnt, byteIdx, bitIdx, stopCnt⟩ := hs.preamble (hphase ▸ hp)
    exact .of_preamble hp (by constructor <;> simpa only [hcfg, hbyte, hbit, hpre, hstop]) (hactive (by simp [hp]))
  | payload =>
    obtain ⟨preCnt, frameLen, byteIdx, stopCnt⟩ := hs.payload (hphase ▸ hp)
    exact .of_payload hp (by constructor <;> simpa only [hcfg, hlen, hbyte, hpre, hstop]) (hactive (by simp [hp]))
  | stop =>
    obtain ⟨preCnt, byteIdx, bitIdx, stopCnt⟩ := hs.stop (hphase ▸ hp)
    exact .of_stop hp (by constructor <;> simpa only [hcfg, hlen, hbyte, hbit, hpre, hstop]) (hactive (by simp [hp]))

/-! ### A tick keeps the framer part (R115 to R117) -/

/-- The 16-bit counters do not wrap below the bounds of R17 and R18. -/
theorem toNat_add_one_of_lt {c : BitVec 16} {n : Nat} (h : c.toNat < n) (hn : n ≤ 65535) :
    (c + 1).toNat = c.toNat + 1 := by
  have h1 : (1 : BitVec 16).toNat = 1 := rfl
  rw [BitVec.toNat_add, h1]
  exact Nat.mod_eq_of_lt (by omega)

theorem FramerInv.tickPreamble {s : State} (hs : FramerInv s) (hp : s.phase = .preamble) :
    FramerInv s.tickPreamble := by
  obtain ⟨hpre, hbyte, hbit, hstop⟩ := hs.preamble hp
  obtain ⟨hlength, hregion⟩ := hs.active (by simp [hp])
  rcases s.tickPreamble_cases with ⟨hne, ht⟩ | ⟨heq, hlen, ht⟩ | ⟨heq, hlen, ht⟩ <;> rw [ht]
  · have hlt : (s.preCnt + 1).toNat < s.cfg.preambleLen := by
      have := toNat_add_one_of_lt hpre s.cfg.preambleLen_le.2
      omega
    exact .of_preamble hp ⟨hlt, hbyte, hbit, hstop⟩ ⟨hlength, hregion⟩
  · exact .of_stop rfl ⟨heq, hlen.symm, rfl, s.cfg.stopLen_le.1⟩ ⟨hlength, hregion⟩
  · have hpos : 0 < s.frameLen.toNat := Nat.pos_of_ne_zero fun h0 => hlen (BitVec.eq_of_toNat_eq h0)
    exact .of_payload rfl ⟨heq, hpos, hpos, hstop⟩ ⟨hlength, hregion⟩

theorem FramerInv.tickPayload {s : State} (hs : FramerInv s) (hp : s.phase = .payload) :
    FramerInv s.tickPayload := by
  obtain ⟨hpre, hpos, hbyte, hstop⟩ := hs.payload hp
  obtain ⟨hlength, hregion⟩ := hs.active (by simp [hp])
  rcases s.tickPayload_cases with ⟨-, ht⟩ | ⟨-, hne, ht⟩ | ⟨-, heq, ht⟩ <;> rw [ht]
  · exact .of_payload hp ⟨hpre, hpos, hbyte, hstop⟩ ⟨hlength, hregion⟩
  · have hlt : s.nextByteIdx.toNat < s.frameLen.toNat := by
      have hfit := s.cfg.aw_le.2.2
      have hnext := s.nextByteIdx_toNat (by omega)
      have := mt BitVec.eq_of_toNat_eq hne
      omega
    exact .of_payload hp ⟨hpre, hpos, hlt, hstop⟩ ⟨hlength, hregion⟩
  · exact .of_stop rfl ⟨hpre, heq, rfl, s.cfg.stopLen_le.1⟩ ⟨hlength, hregion⟩

theorem FramerInv.tickStop {s : State} (hs : FramerInv s) (hp : s.phase = .stop) : FramerInv s.tickStop := by
  obtain ⟨hpre, hbyte, hbit, hstop⟩ := hs.stop hp
  obtain ⟨hlength, hregion⟩ := hs.active (by simp [hp])
  rcases s.tickStop_cases with ⟨hne, ht⟩ | ⟨heq, ht⟩ <;> rw [ht]
  · have hlt : (s.stopCnt + 1).toNat < s.cfg.stopLen := by
      have := toNat_add_one_of_lt hstop s.cfg.stopLen_le.2
      omega
    exact .of_stop hp ⟨hpre, hbyte, hbit, hlt⟩ ⟨hlength, hregion⟩
  · exact .of_idle rfl ⟨rfl, rfl, hbit, .inr hpre, .inr heq⟩

theorem FramerInv.tickAction {s : State} (hs : FramerInv s) : FramerInv s.tickAction := by
  cases hp : s.phase with
  | idle => rwa [s.tickAction_idle hp]
  | preamble => rw [s.tickAction_preamble hp]; exact hs.tickPreamble hp
  | payload => rw [s.tickAction_payload hp]; exact hs.tickPayload hp
  | stop => rw [s.tickAction_stop hp]; exact hs.tickStop hp

/-- An accepted START makes a legal Preamble (R112). -/
theorem FramerInv.beginFrame {s : State} (h : s.frameTooLarge = false) : FramerInv s.beginFrame := by
  have hfit := mt s.frameTooLarge_iff.mpr (by simp [h])
  rw [not_or, Nat.not_lt, Nat.not_lt] at hfit
  exact .of_preamble rfl ⟨s.cfg.preambleLen_le.1, rfl, rfl, rfl⟩ ⟨hfit.1, hfit.2⟩

/-! ### The registers of AW bits -/

/-- The frame registers a tick leaves are the old ones, 0, or a byte cursor cut to AW bits (R37, R93). -/
theorem RegistersFit.tickAction {s : State} (hs : RegistersFit s) : RegistersFit s.tickAction := by
  have hzero : (0 : Word).toNat < s.cfg.memSize := Nat.two_pow_pos _
  cases hp : s.phase with
  | idle => rwa [s.tickAction_idle hp]
  | preamble =>
    rw [s.tickAction_preamble hp]
    rcases s.tickPreamble_cases with ⟨-, ht⟩ | ⟨-, -, ht⟩ | ⟨-, -, ht⟩ <;> rw [ht]
    · exact { hs with }
    · exact { hs with byteIdx := hzero }
    · exact { hs with byteIdx := hzero }
  | payload =>
    rw [s.tickAction_payload hp]
    rcases s.tickPayload_cases with ⟨-, ht⟩ | ⟨-, -, ht⟩ | ⟨-, -, ht⟩ <;> rw [ht]
    · exact { hs with }
    · exact { hs with byteIdx := keepAw_lt s.cfg _ }
    · exact { hs with byteIdx := keepAw_lt s.cfg _ }
  | stop =>
    rw [s.tickAction_stop hp]
    rcases s.tickStop_cases with ⟨-, ht⟩ | ⟨-, ht⟩ <;> rw [ht]
    · exact { hs with }
    · exact { hs with frameBase := hzero, frameLen := hzero }

/-- A word below `MEM_SIZE` has no bit from AW on. -/
theorem getLsbD_eq_false_of_lt_memSize {c : Config} {v : Word} (h : v.toNat < c.memSize) {k : Nat} (hk : c.aw ≤ k) :
    v.getLsbD k = false :=
  Nat.testBit_lt_two_pow (Nat.lt_of_lt_of_le h (Nat.pow_le_pow_right (by decide) hk))

/-- Settles O39: each of the six registers is below `MEM_SIZE`, and its read returns it as it is. -/
theorem reservedRegisterBitsReadZero : Obligations.ReservedRegisterBitsReadZero := by
  intro s i hs hi
  obtain ⟨hsrc, hdst, hlen, hbyte, hbase, hflen⟩ := hs.registers
  suffices h : ∃ v : Word, exec i s = .next (s.emit (.read v)) ∧ v.toNat < s.cfg.memSize by
    obtain ⟨v, hv, hlt⟩ := h
    exact ⟨_, v, hv, s.emittedSince_emit _, fun _ => getLsbD_eq_false_of_lt_memSize hlt⟩
  rcases hi with rfl | rfl | rfl | rfl | rfl | rfl
  · exact ⟨_, rfl, hsrc⟩
  · exact ⟨_, rfl, hdst⟩
  · exact ⟨_, rfl, hlen⟩
  · exact ⟨_, rfl, hbyte⟩
  · exact ⟨_, rfl, hbase⟩
  · exact ⟨_, rfl, hflen⟩

/-! ### Every result of an operation keeps the invariant -/

theorem OpResult.registersFit {i : Instr} {s t : State} (h : OpResult s i t) (hs : RegistersFit s) :
    RegistersFit t := by
  cases h with
  | startAccepted => exact { hs with byteIdx := Nat.two_pow_pos _, frameBase := hs.src, frameLen := hs.len }
  | wroteSrc data => exact { hs with src := keepAw_lt s.cfg data }
  | wroteDst data => exact { hs with dst := keepAw_lt s.cfg data }
  | wroteLen data => exact { hs with len := keepAw_lt s.cfg data }
  | tick => exact hs.tickAction
  | _ => exact { hs with }

theorem OpResult.bufCanonical {i : Instr} {s t : State} (h : OpResult s i t) (hs : Memory.wf s.buf = true) :
    Memory.wf t.buf = true := by
  cases h with
  | codecWrote | memWrote => exact Memory.wf_writeBytes _ hs _ _
  | tick => rwa [s.tickAction_buf]
  | _ => exact hs

theorem OpResult.bufWithin {i : Instr} {s t : State} (h : OpResult s i t)
    (hs : Memory.within s.cfg.memSize s.buf = true) : Memory.within t.cfg.memSize t.buf = true := by
  cases h with
  | codecWrote _ fits => exact Memory.within_writeBytes _ _ hs _ _ fits
  | memWrote addr data fits => exact Memory.within_writeBytes _ _ hs _ _ fits
  | tick => rwa [s.tickAction_cfg, s.tickAction_buf]
  | _ => exact hs

/-- R150: WORKING is never produced. -/
theorem working_notMem_producedStatuses (i : Instr) : Status.working ∉ producedStatuses i := by
  cases i <;> simp [producedStatuses]

theorem OpResult.status_ne_working {i : Instr} {s t : State} (h : OpResult s i t) (hs : s.status ≠ .working) :
    t.status ≠ .working := by
  cases h with
  | codecError produced => exact fun hw => working_notMem_producedStatuses i (hw ▸ produced)
  | codecWrote => exact Status.noConfusion
  | tick => rwa [s.tickAction_status]
  | _ => exact hs

theorem State.refusals_refuse (s : State) (r : Reason) :
    (s.refuse r).refused = !(s.refuse r).reasons.isEmpty := by
  simp

theorem OpResult.refusals {i : Instr} {s t : State} (h : OpResult s i t) (hs : s.refused = !s.reasons.isEmpty) :
    t.refused = !t.reasons.isEmpty := by
  cases h with
  | codecRefused | startRefused | memWriteRefused | memReadRefused => exact s.refusals_refuse _
  | tick => rwa [s.tickAction_refused, s.tickAction_reasons]
  | _ => exact hs

theorem OpResult.framerInv {i : Instr} {s t : State} (h : OpResult s i t) (hs : FramerInv s) : FramerInv t := by
  cases h with
  | startAccepted _ fits => exact .beginFrame fits
  | tick => exact hs.tickAction
  | _ => exact hs.congr rfl rfl

theorem OpResult.inv {i : Instr} {s t : State} (h : OpResult s i t) (hs : s.Inv) : t.Inv where
  registers := h.registersFit hs.registers
  bufCanonical := h.bufCanonical hs.bufCanonical
  bufWithin := h.bufWithin hs.bufWithin
  status := h.status_ne_working hs.status
  refusals := h.refusals hs.refusals
  framer := h.framerInv hs.framer

/-! ### Steps and runs -/

/-- What the environment still sends is no part of the invariant (R48). -/
theorem State.Inv.withStream {s : State} (hs : s.Inv) (arrivals : List Arrival) :
    State.Inv { s with stream := arrivals } :=
  { hs with registers := { hs.registers with }, framer := hs.framer.congr rfl rfl }

/-- An arrival has the result of an operation: a word that names none is refused just as a MEM_READ past the end of
BUF is (R91, R144). -/
theorem runArrival_result (a : Arrival) (s t : State) (h : runArrival a s = .next t) : ∃ i, OpResult s i t := by
  unfold runArrival at h
  split at h
  · next i _ => exact ⟨i, exec_result i s t h⟩
  · cases h
    exact ⟨_, .memReadRefused 0⟩

/-- Settles O50: a step is a change of the stream and the result of an operation, and both keep the invariant. -/
theorem stepKeepsTheInvariant : Obligations.StepKeepsTheInvariant := by
  intro s t hs h
  cases harr : s.stream with
  | nil =>
    rw [step_nil s harr] at h
    cases h
    exact hs
  | cons a rest =>
    rw [step_cons s a rest harr] at h
    obtain ⟨i, hres⟩ := runArrival_result a _ t h
    exact hres.inv (hs.withStream rest)

theorem State.Inv.initial (c : Config) (m : Memory) (hm : Memory.wf m = true)
    (hw : Memory.within c.memSize m = true) : (State.initial c m).Inv where
  registers := by constructor <;> exact Nat.two_pow_pos c.aw
  bufCanonical := hm
  bufWithin := hw
  status := Status.noConfusion
  refusals := rfl
  framer := .of_idle rfl ⟨rfl, rfl, rfl, .inl rfl, .inl rfl⟩

/-- Settles O51: at reset every register is 0 and the framer is Idle; the listed content is canonical by hypothesis. -/
theorem initialStatesMeetTheInvariant : Obligations.InitialStatesMeetTheInvariant :=
  ⟨State.Inv.initial, .initial Config.test [] rfl rfl⟩

/-- A run of one step more is the run from the state after its first step, which every step has (R13). -/
theorem core_run_succ (n : Nat) (s : State) : ∃ u, step s = .next u ∧ core.run (n + 1) s = core.run n u := by
  obtain ⟨u, hu, -⟩ := step_answers s
  have hcore : core.step s = .next u := hu
  exact ⟨u, hu, by simp only [Host.Core.run, hcore]⟩

/-- What every step keeps, every run keeps. -/
theorem core_run_keeps {P : State → Prop} (hstep : ∀ s t, P s → step s = .next t → P t) (n : Nat) (s t : State)
    (hs : P s) (h : core.run n s = .next t) : P t := by
  induction n generalizing s with
  | zero =>
    cases h
    exact hs
  | succ n ih =>
    obtain ⟨u, hu, hrun⟩ := core_run_succ n s
    exact ih u (hstep s u hs hu) (hrun ▸ h)

/-- Settles O52: the invariant of an initial state is kept along the run, whatever arrives. -/
theorem reachableFramerContextsAreLegal : Obligations.ReachableFramerContextsAreLegal := by
  intro c m arrivals n t hm hw h
  have hinit := (State.Inv.initial c m hm hw).withStream arrivals
  exact (core_run_keeps stepKeepsTheInvariant n _ t hinit h).framer

end Sys2Proof.Machine
end

section
/-! PROOFS. The buffer memory (spec/20_memory.md): which bytes an operation stores to (R58, R63, R64), what is read back
after a write (R60, R64), and that a codec command and a tick may change places (R65). -/

namespace Sys2Proof.Machine

/-! ### What an operation does to BUF -/

theorem exec_effect (i : Instr) (s t : State) (h : exec i s = .next t) : OpEffect s t := by
  obtain ⟨u, hu, heffect⟩ := exec_answers i s
  obtain rfl : u = t := Host.Outcome.next.inj (hu.symm.trans h)
  exact heffect

theorem OpEffect.cfg_eq {s t : State} (h : OpEffect s t) : t.cfg = s.cfg := by
  cases h with
  | carriedOut _ _ _ _ cfg => exact cfg
  | refused => rfl

theorem OpEffect.events_prefix {s t : State} (h : OpEffect s t) : s.events <+: t.events := by
  cases h with
  | carriedOut _ _ events => exact events
  | refused => exact List.prefix_rfl

/-- No operation but MEM_WRITE and the codec commands writes BUF (R64). -/
theorem OpResult.buf_unchanged {i : Instr} {s t : State} (h : OpResult s i t) (hcodec : producedStatuses i = [])
    (hmem : ∀ addr data, i ≠ .memWrite addr data) : t.buf = s.buf := by
  cases h with
  | codecWrote produced => simp [hcodec] at produced
  | memWrote addr data => exact absurd rfl (hmem addr data)
  | tick => exact s.tickAction_buf
  | _ => rfl

/-- What the operation `i` can do to BUF: nothing, or write one run of bytes of its own region that meets no byte of
the active frame (R63, R64). -/
inductive BufEffect (s : State) (i : Instr) : Memory → Prop where
  | unchanged : BufEffect s i s.buf
  | wrote (d : Nat) (xs : List Byte) (stored : ∀ a, d ≤ a → a < d + xs.length → storesTo i s a)
      (borrow : s.borrowViolated d xs.length = false) : BufEffect s i (s.buf.writeBytes d xs)

/-- A codec command whose destination region is `i`'s own does to BUF what `i` can do. -/
theorem BufEffect.codecCommand (s : State) (i : Instr) (outLen : Nat) (result : List Byte → Status × List Byte)
    (hstored : ∀ a, s.dstAddr ≤ a → a < s.dstAddr + outLen → storesTo i s a)
    (hlen : ∀ out, result (s.buf.readBytes s.srcAddr s.lenBytes) = (.ok, out) → out.length = outLen) :
    BufEffect s i (s.codecCommand outLen result).buf := by
  rcases s.codecCommand_cases outLen result with ⟨r, -, h⟩ | ⟨st, out, -, -, h⟩ | ⟨out, hres, -, hborrow, h⟩ <;> rw [h]
  · exact .unchanged
  · exact .unchanged
  · obtain rfl := hlen out hres
    exact .wrote s.dstAddr out hstored hborrow

theorem encode_length (s : State) (std : BitVec 2) (out : List Byte)
    (h : encodeSeq (s.buf.readBytes s.srcAddr s.lenBytes) std = (.ok, out)) : out.length = 2 * s.lenBytes := by
  simpa using length_encodeSeq _ out std h

theorem decode_length (s : State) (std : BitVec 2) (out : List Byte)
    (h : decodeSeq (s.buf.readBytes s.srcAddr s.lenBytes) std = (.ok, out)) : out.length = s.lenBytes / 2 := by
  simpa using length_decodeSeq _ out std h

theorem exec_bufEffect (i : Instr) (s t : State) (h : exec i s = .next t) : BufEffect s i t.buf := by
  cases i with
  | cmdEncode std =>
    cases h
    exact .codecCommand s _ _ _ (fun a hd ha => ⟨hd, ha⟩) (encode_length s std)
  | cmdDecode std =>
    cases h
    exact .codecCommand s _ _ _ (fun a hd ha => ⟨hd, ha⟩) (decode_length s std)
  | memWrite addr data =>
    have hstored (a : Nat) (hd : addr.toNat ≤ a) (ha : a < addr.toNat + 1) :
        storesTo (.memWrite addr data) s a := Nat.le_antisymm (Nat.le_of_lt_succ ha) hd
    rcases execMemWrite_cases addr data s with ⟨-, hx⟩ | ⟨-, -, hx⟩ | ⟨-, hborrow, hx⟩ <;>
      obtain rfl := Host.Outcome.next.inj (hx.symm.trans h)
    · exact .unchanged
    · exact .unchanged
    · exact .wrote addr.toNat [data] hstored hborrow
  | _ =>
    rw [(exec_result _ s t h).buf_unchanged rfl nofun]
    exact .unchanged

/-- A byte that an operation does not store to reads as before. -/
theorem BufEffect.readByte_of_not_storesTo {s : State} {i : Instr} {m : Memory} (h : BufEffect s i m)
    (hm : Memory.wf s.buf = true) {a : Nat} (ha : ¬ storesTo i s a) : m.readByte a = s.readByte a := by
  cases h with
  | unchanged => rfl
  | wrote d xs stored =>
    refine Memory.readByte_writeBytes_outside _ hm d a xs ?_
    by_contra hin
    exact ha (stored a (by omega) (by omega))

/-- The borrow check keeps every written run off the active frame (R63). -/
theorem BufEffect.readByte_of_inActiveFrame {s : State} {i : Instr} {m : Memory} (h : BufEffect s i m)
    (hm : Memory.wf s.buf = true) {a : Nat} (ha : s.inActiveFrame a) : m.readByte a = s.readByte a := by
  cases h with
  | unchanged => rfl
  | wrote d xs _ borrow =>
    refine Memory.readByte_writeBytes_outside _ hm d a xs ?_
    obtain ⟨hphase, hbase, hend⟩ := ha
    by_contra hin
    have hviolated := (s.borrowViolated_iff d xs.length).mpr ⟨hphase, by omega⟩
    simp [hviolated] at borrow

/-- Settles O14: what an operation writes to BUF lies in the region it stores to. -/
theorem bytesOutsideTheStoredOnesAreUnchanged : Obligations.BytesOutsideTheStoredOnesAreUnchanged := by
  intro i s t hm h a ha
  exact (exec_bufEffect i s t h).readByte_of_not_storesTo hm ha

/-- Settles O35: what an operation writes to BUF has passed the borrow check. -/
theorem activeFrameBytesNeverChange : Obligations.ActiveFrameBytesNeverChange := by
  intro i s t hm h a ha
  exact (exec_bufEffect i s t h).readByte_of_inActiveFrame hm ha

/-! ### A run of operations -/

theorem runInstrs_cons_eq_next {i : Instr} {is : List Instr} {s v : State} (h : runInstrs (i :: is) s = .next v) :
    ∃ t, exec i s = .next t ∧ runInstrs is t = .next v := by
  obtain ⟨t, ht, -⟩ := exec_answers i s
  rw [runInstrs_cons, ht, andThen_next] at h
  exact ⟨t, ht, h⟩

/-- What each of the operations keeps, a run of them keeps. -/
theorem runInstrs_keeps {P : State → Prop} {is : List Instr} {s v : State}
    (hkeep : ∀ i ∈ is, ∀ t u, P t → exec i t = .next u → P u) (hs : P s) (h : runInstrs is s = .next v) : P v := by
  induction is generalizing s with
  | nil =>
    cases h
    exact hs
  | cons i is ih =>
    obtain ⟨t, ht, hrun⟩ := runInstrs_cons_eq_next h
    obtain ⟨hi, his⟩ := List.forall_mem_cons.mp hkeep
    exact ih his (hi s t hs ht) hrun

/-! ### What is read back after a write -/

/-- BUF is canonical, and the address `a`, which exists, holds the byte `x`. -/
structure HoldsByte (a : Nat) (x : Byte) (s : State) : Prop where
  canonical : Memory.wf s.buf = true
  inRange : a < s.cfg.memSize
  byte : s.readByte a = x

/-- An operation that does not store to an address leaves the byte it holds. -/
theorem HoldsByte.exec {a : Nat} {x : Byte} {i : Instr} {s t : State} (hs : HoldsByte a x s)
    (h : exec i s = .next t) (ha : ¬ storesTo i s a) : HoldsByte a x t where
  canonical := (exec_result i s t h).bufCanonical hs.canonical
  inRange := (exec_effect i s t h).cfg_eq ▸ hs.inRange
  byte := (bytesOutsideTheStoredOnesAreUnchanged i s t hs.canonical h a ha).trans hs.byte

/-- A MEM_WRITE that is not refused stores its byte, and its checks have passed (R143). -/
theorem execMemWrite_accepted {addr : Word} {data : Byte} {s t : State} (h : exec (.memWrite addr data) s = .next t)
    (ht : t.refused = false) :
    addr.toNat < s.cfg.memSize ∧ s.borrowViolated addr.toNat 1 = false ∧ t = s.storeBytes addr.toNat [data] := by
  rcases execMemWrite_cases addr data s with ⟨-, hx⟩ | ⟨-, -, hx⟩ | ⟨hlt, hborrow, hx⟩ <;>
    obtain rfl := Host.Outcome.next.inj (hx.symm.trans h)
  · simp at ht
  · simp at ht
  · exact ⟨hlt, hborrow, rfl⟩

/-- Of the operations other than the codec commands, only a MEM_WRITE to an address stores to it (R64). -/
theorem not_storesTo_of_ne {i : Instr} {addr : Word} (hmem : ∀ x, i ≠ .memWrite addr x)
    (hcodec : ∀ std, i ≠ .cmdEncode std ∧ i ≠ .cmdDecode std) (s : State) : ¬ storesTo i s addr.toNat := by
  cases i with
  | cmdEncode std => exact absurd rfl (hcodec std).1
  | cmdDecode std => exact absurd rfl (hcodec std).2
  | memWrite addr' x =>
    intro hstored
    exact hmem x (BitVec.eq_of_toNat_eq hstored ▸ rfl)
  | _ => exact id

/-- Settles O42: the stored byte is kept by every operation between, and the read returns it. -/
theorem readReturnsTheLastByteWritten : Obligations.ReadReturnsTheLastByteWritten := by
  intro s t u addr data is hm _ hwrite ht hrun hmem hcodec
  obtain ⟨hlt, -, rfl⟩ := execMemWrite_accepted hwrite ht
  have hwritten : HoldsByte addr.toNat data (s.storeBytes addr.toNat [data]) :=
    ⟨Memory.wf_writeBytes _ hm _ _, hlt, Memory.readByte_writeBytes_inside s.buf hm addr.toNat 0 [data] Nat.zero_lt_one⟩
  obtain ⟨-, hrange, hbyte⟩ := runInstrs_keeps
    (fun i hi v w hv hw => hv.exec hw (not_storesTo_of_ne (hmem i hi) (hcodec i hi) v)) hwritten hrun
  refine ⟨data.setWidth 32, by simp; omega, ?_⟩
  rcases execMemRead_cases addr u with ⟨hge, -⟩ | ⟨-, hread⟩
  · omega
  · rw [hbyte] at hread
    exact hread

/-- A byte written twice is a byte written once (R60). -/
theorem Memory.writeByte_writeByte (m : Memory) (hm : Memory.wf m = true) (a : Nat) (v : Byte) :
    (m.writeByte a v).writeByte a v = m.writeByte a v := by
  have hm' := Memory.wf_writeByte m hm a v
  refine Memory.ext_of_lookup _ _ (Memory.wf_writeByte _ hm' a v) hm' fun b => ?_
  rw [Memory.lookup_writeByte _ hm']
  split
  · next hb => rw [Memory.lookup_writeByte m hm, if_pos hb]
  · rfl

/-- Settles O43: a register keeps the same bits of the same value, and a byte stored again changes no list of bytes. -/
theorem writesAreIdempotent : Obligations.WritesAreIdempotent := by
  intro s t i hm _ h ht hi
  rcases hi with ⟨d, rfl | rfl | rfl⟩ | ⟨addr, data, rfl⟩
  · cases h
    rfl
  · cases h
    rfl
  · cases h
    rfl
  · obtain ⟨hlt, hborrow, rfl⟩ := execMemWrite_accepted h ht
    have htwice : (s.storeBytes addr.toNat [data]).storeBytes addr.toNat [data] = s.storeBytes addr.toNat [data] :=
      congrArg (fun m => { s with buf := m }) (Memory.writeByte_writeByte s.buf hm addr.toNat data)
    rcases execMemWrite_cases addr data (s.storeBytes addr.toNat [data]) with ⟨hge, -⟩ | ⟨-, hviolated, -⟩ | ⟨-, -, hx⟩
    · exact absurd hlt (Nat.not_lt.mpr hge)
    · exact absurd (hborrow.symm.trans hviolated) Bool.false_ne_true
    · exact hx.trans (congrArg _ htwice)


/-! ### A codec command and a tick (R65) -/

/-- What a codec command that is not refused does to the state: it writes BUF and STATUS and nothing else. -/
def State.withBufStatus (s : State) (m : Memory) (st : Status) : State := { s with buf := m, status := st }

section Tick

variable (s : State) (m : Memory) (st : Status)

theorem State.afterPreambleBit_withBufStatus :
    (s.withBufStatus m st).afterPreambleBit = s.afterPreambleBit.withBufStatus m st := by
  unfold State.afterPreambleBit State.endPreamble
  rw [apply_ite (State.withBufStatus · m st), apply_ite (State.withBufStatus · m st)]
  rfl

theorem State.afterPayloadBit_withBufStatus :
    (s.withBufStatus m st).afterPayloadBit = s.afterPayloadBit.withBufStatus m st := by
  unfold State.afterPayloadBit State.afterByte
  rw [apply_ite (State.withBufStatus · m st), apply_ite (State.withBufStatus · m st)]
  rfl

theorem State.afterStopBit_withBufStatus :
    (s.withBufStatus m st).afterStopBit = s.afterStopBit.withBufStatus m st := by
  unfold State.afterStopBit
  rw [apply_ite (State.withBufStatus · m st)]
  rfl

/-- A tick writes neither BUF nor STATUS, and reads of the two only the byte at the framer's cursors (R113, R125). -/
theorem State.tickAction_withBufStatus (h : s.phase = .payload → m.readByte s.framePos = s.readByte s.framePos) :
    (s.withBufStatus m st).tickAction = s.tickAction.withBufStatus m st := by
  cases hp : s.phase with
  | idle => rw [s.tickAction_idle hp, (s.withBufStatus m st).tickAction_idle hp]
  | preamble =>
    rw [s.tickAction_preamble hp, (s.withBufStatus m st).tickAction_preamble hp]
    exact State.afterPreambleBit_withBufStatus ({ s with preCnt := s.preCnt + 1 }.lineWrite s.preambleBit) m st
  | payload =>
    have hbit : (s.withBufStatus m st).payloadBit = s.payloadBit :=
      congrArg (fun b : Byte => b.getLsbD (7 - s.bitIdx.toNat)) (h hp)
    rw [s.tickAction_payload hp, (s.withBufStatus m st).tickAction_payload hp, State.tickPayload, hbit]
    exact State.afterPayloadBit_withBufStatus (s.lineWrite s.payloadBit) m st
  | stop =>
    rw [s.tickAction_stop hp, (s.withBufStatus m st).tickAction_stop hp]
    exact State.afterStopBit_withBufStatus ({ s with stopCnt := s.stopCnt + 1 }.lineWrite false) m st

/-- A tick keeps the frame registers until it ends the transmission (R42, R43). -/
theorem State.tickAction_frame :
    s.tickAction.phase = .idle ∨
      s.phase ≠ .idle ∧ s.tickAction.frameBase = s.frameBase ∧ s.tickAction.frameLen = s.frameLen := by
  cases hp : s.phase with
  | idle => exact .inl ((congrArg State.phase (s.tickAction_idle hp)).trans hp)
  | preamble =>
    rw [s.tickAction_preamble hp]
    rcases s.tickPreamble_cases with ⟨-, ht⟩ | ⟨-, -, ht⟩ | ⟨-, -, ht⟩ <;> simp [ht]
  | payload =>
    rw [s.tickAction_payload hp]
    rcases s.tickPayload_cases with ⟨-, ht⟩ | ⟨-, -, ht⟩ | ⟨-, -, ht⟩ <;> simp [ht]
  | stop =>
    rw [s.tickAction_stop hp]
    rcases s.tickStop_cases with ⟨-, ht⟩ | ⟨-, ht⟩ <;> simp [ht]

@[simp] theorem State.tickAction_srcAddr : s.tickAction.srcAddr = s.srcAddr := by simp [State.srcAddr]
@[simp] theorem State.tickAction_dstAddr : s.tickAction.dstAddr = s.dstAddr := by simp [State.dstAddr]
@[simp] theorem State.tickAction_lenBytes : s.tickAction.lenBytes = s.lenBytes := by simp [State.lenBytes]

end Tick

/-- A region that may be written before a tick may be written after it. -/
theorem State.borrowViolated_tickAction {s : State} {a n : Nat} (h : s.borrowViolated a n = false) :
    s.tickAction.borrowViolated a n = false := by
  rcases s.tickAction_frame with hidle | ⟨hphase, hbase, hlen⟩
  · simp [State.borrowViolated, hidle]
  · have hdisj : overlap a n s.frameBase.toNat s.frameLen.toNat = false := by
      simpa [State.borrowViolated, hphase] using h
    rw [State.borrowViolated, hbase, hlen, hdisj, Bool.and_false]

/-- The byte the next Payload tick reads is a byte of the active frame (R49, R116). -/
theorem FramerInv.inActiveFrame_framePos {s : State} (hs : FramerInv s) (hp : s.phase = .payload) :
    s.inActiveFrame s.framePos := by
  obtain ⟨-, -, hbyte, -⟩ := hs.payload hp
  exact ⟨by simp [hp], Nat.le_add_right _ _, Nat.add_lt_add_left hbyte _⟩

section Commute

variable {s : State} {outLen : Nat} {result : List Byte → Status × List Byte}

/-- What a codec command that is not refused has passed: the region checks, and for an OK result the borrow check
(R63, R110). -/
theorem State.codecCommand_accepted (h : (s.codecCommand outLen result).refused = false) :
    (s.srcAddr + s.lenBytes ≤ s.cfg.memSize ∧ s.dstAddr + outLen ≤ s.cfg.memSize) ∧
    overlap s.srcAddr s.lenBytes s.dstAddr outLen = false ∧
    ∀ out, result (s.buf.readBytes s.srcAddr s.lenBytes) = (.ok, out) → s.borrowViolated s.dstAddr outLen = false := by
  have hrange : s.srcAddr + s.lenBytes ≤ s.cfg.memSize ∧ s.dstAddr + outLen ≤ s.cfg.memSize := by
    by_contra hrange
    simp [s.codecCommand_outOfRange outLen result hrange] at h
  have hdisj : overlap s.srcAddr s.lenBytes s.dstAddr outLen = false := by
    by_contra hdisj
    simp [s.codecCommand_overlap outLen result hrange (eq_true_of_ne_false hdisj)] at h
  refine ⟨hrange, hdisj, fun out hr => ?_⟩
  by_contra hborrow
  simp [s.codecCommand_borrow outLen result hrange hdisj out hr (eq_true_of_ne_false hborrow)] at h

/-- A codec command that is not refused writes the same bytes and the same status after a tick (R65, R113). -/
theorem State.codecCommand_tickAction (h : (s.codecCommand outLen result).refused = false) :
    ∃ m st, s.codecCommand outLen result = s.withBufStatus m st ∧
      s.tickAction.codecCommand outLen result = s.tickAction.withBufStatus m st := by
  obtain ⟨hrange, hdisj, hborrow⟩ := State.codecCommand_accepted h
  rcases hr : result (s.buf.readBytes s.srcAddr s.lenBytes) with ⟨st, out⟩
  by_cases hst : st = .ok
  · subst hst
    refine ⟨_, _, s.codecCommand_ok outLen result hrange hdisj out hr (hborrow out hr), ?_⟩
    rw [s.tickAction.codecCommand_ok outLen result (by simpa using hrange) (by simpa using hdisj) out
      (by simpa using hr) (by simpa using s.borrowViolated_tickAction (hborrow out hr))]
    simp [State.withBufStatus, State.setStatus, State.storeBytes]
  · refine ⟨s.buf, st, s.codecCommand_error outLen result hrange hdisj st out hst hr, ?_⟩
    rw [s.tickAction.codecCommand_error outLen result (by simpa using hrange) (by simpa using hdisj) st out hst
      (by simpa using hr)]
    simp [State.withBufStatus, State.setStatus]

/-- The borrow check keeps the command off the byte the tick reads, so the two may change places (R65). -/
theorem State.codecCommand_commutes_tickAction (hs : s.Inv) {i : Instr}
    (hbuf : BufEffect s i (s.codecCommand outLen result).buf)
    (h : (s.codecCommand outLen result).refused = false) :
    s.tickAction.codecCommand outLen result = (s.codecCommand outLen result).tickAction := by
  obtain ⟨m, st, hbefore, hafter⟩ := State.codecCommand_tickAction h
  rw [hbefore] at hbuf
  rw [hbefore, hafter, s.tickAction_withBufStatus m st]
  intro hp
  exact hbuf.readByte_of_inActiveFrame hs.bufCanonical (hs.framer.inActiveFrame_framePos hp)

end Commute

/-- Settles O36: ENCODE and DECODE are one shape of command, which changes places with a tick. -/
theorem codecCommandAndTickCommute : Obligations.CodecCommandAndTickCommute := by
  intro s t u i std hs _ hi hcommandFirst ht htickFirst
  rcases hi with rfl | rfl
  all_goals
    cases hcommandFirst
    cases htickFirst
    rw [State.tickAction_refused] at ht
    rw [State.tickAction_lenBytes]
  · exact State.codecCommand_commutes_tickAction hs (exec_bufEffect (.cmdEncode std) s _ rfl) ht
  · exact State.codecCommand_commutes_tickAction hs (exec_bufEffect (.cmdDecode std) s _ rfl) ht

end Sys2Proof.Machine
end

section
/-! PROOFS. A transmission and the host (spec/20_memory.md R64, R68): how far a transmission has come and which levels it
still has to send, and that only its ticks send them (R115 to R120, R170). -/

namespace Sys2Proof.Machine

/-! ### Events along a run -/

theorem lineLevels_append (es fs : List Event) : lineLevels (es ++ fs) = lineLevels es ++ lineLevels fs :=
  List.filterMap_append

/-- What two parts of a run emitted, one after the other (R14). -/
theorem State.emittedSince_trans {s t v : State} (hst : s.events <+: t.events) (htv : t.events <+: v.events) :
    v.emittedSince s = t.emittedSince s ++ v.emittedSince t := by
  obtain ⟨es, hes⟩ := hst
  obtain ⟨fs, hfs⟩ := htv
  rw [State.emittedSince_of_events hes.symm, State.emittedSince_of_events hfs.symm]
  exact State.emittedSince_of_events (by rw [← hfs, ← hes, List.append_assoc])

theorem runInstrs_events_prefix {is : List Instr} {s v : State} (h : runInstrs is s = .next v) :
    s.events <+: v.events :=
  runInstrs_keeps (P := fun t => s.events <+: t.events)
    (fun i _ t u ht hu => ht.trans (exec_effect i t u hu).events_prefix) List.prefix_rfl h

/-! ### How far a transmission has come -/

/-- The ticks a transmission has taken, by its phase and cursors (R119); all of them when none is active. -/
def State.ticksTaken (s : State) : Nat :=
  match s.phase with
  | .idle => s.transmissionTicks
  | .preamble => s.preCnt.toNat
  | .payload => s.cfg.preambleLen + (8 * s.byteIdx.toNat + s.bitIdx.toNat)
  | .stop => s.cfg.preambleLen + 8 * s.frameLen.toNat + s.stopCnt.toNat

/-- The levels a transmission has still to send. -/
def State.pendingLevels (s : State) : List Bool := s.transmissionLevels.drop s.ticksTaken

section Taken

variable {s : State}

theorem State.ticksTaken_idle (h : s.phase = .idle) : s.ticksTaken = s.transmissionTicks := by
  simp [State.ticksTaken, h]

theorem State.ticksTaken_preamble (h : s.phase = .preamble) : s.ticksTaken = s.preCnt.toNat := by
  simp [State.ticksTaken, h]

theorem State.ticksTaken_payload (h : s.phase = .payload) :
    s.ticksTaken = s.cfg.preambleLen + (8 * s.byteIdx.toNat + s.bitIdx.toNat) := by
  simp [State.ticksTaken, h]

theorem State.ticksTaken_stop (h : s.phase = .stop) :
    s.ticksTaken = s.cfg.preambleLen + 8 * s.frameLen.toNat + s.stopCnt.toNat := by
  simp [State.ticksTaken, h]

end Taken

/-! ### The levels of a transmission (R120) -/

@[simp] theorem length_byteBits (b : Byte) : (byteBits b).length = 8 := rfl

theorem length_flatMap_byteBits (bs : List Byte) : (bs.flatMap byteBits).length = 8 * bs.length := by
  simp [Nat.mul_comm]

/-- Bit `k` of a byte, counted from the most significant (R54). -/
theorem getElem?_byteBits (b : Byte) (k : Nat) (hk : k < 8) : (byteBits b)[k]? = some (b.getLsbD (7 - k)) := by
  interval_cases k <;> rfl

/-- The bit at `8 j + k` of a sequence of bytes is bit `k` of byte `j`. -/
theorem getElem?_flatMap_byteBits (bs : List Byte) (j k : Nat) (hk : k < 8) :
    (bs.flatMap byteBits)[8 * j + k]? = bs[j]?.map fun b => b.getLsbD (7 - k) := by
  induction bs generalizing j with
  | nil => rfl
  | cons b bs ih =>
    rw [List.flatMap_cons]
    cases j with
    | zero =>
      rw [List.getElem?_append_left (by simpa using hk)]
      simpa using getElem?_byteBits b k hk
    | succ j =>
      rw [List.getElem?_append_right (by simp; omega), length_byteBits, List.getElem?_cons_succ, ← ih j]
      congr 1
      omega

@[simp] theorem State.length_frameBytes (s : State) : s.frameBytes.length = s.frameLen.toNat :=
  Memory.length_readBytes _ _ _

theorem State.length_transmissionLevels (s : State) : s.transmissionLevels.length = s.transmissionTicks := by
  simp only [State.transmissionLevels, State.transmissionTicks, Config.preambleLen, List.length_append,
    length_flatMap_byteBits, State.length_frameBytes, List.length_replicate]

section Levels

variable (s : State)

/-- The first `P` levels are the pattern. -/
theorem State.getElem?_transmissionLevels_preamble {n : Nat} (h : n < s.cfg.preambleLen) :
    s.transmissionLevels[n]? = s.cfg.preamble[n]? := by
  have hlt : n < s.cfg.preamble.length := h
  rw [State.transmissionLevels, List.append_assoc, List.getElem?_append_left hlt]

/-- After the pattern come the bits of the frame bytes. -/
theorem State.getElem?_transmissionLevels_payload {j k : Nat} (hj : j < s.frameLen.toNat) (hk : k < 8) :
    s.transmissionLevels[s.cfg.preambleLen + (8 * j + k)]? =
      some ((s.readByte (s.frameBase.toNat + j)).getLsbD (7 - k)) := by
  have hbyte : s.frameBytes[j]? = some (s.readByte (s.frameBase.toNat + j)) := by
    rw [List.getElem?_eq_getElem (by simpa using hj)]
    exact congrArg some (Memory.getElem_readBytes _ _ _ _ _)
  rw [State.transmissionLevels, List.append_assoc, Config.preambleLen, List.getElem?_append_right (by omega),
    Nat.add_sub_cancel_left, List.getElem?_append_left (by simp; omega),
    getElem?_flatMap_byteBits _ j k hk, hbyte, Option.map_some]

/-- After the frame come the stop bits. -/
theorem State.getElem?_transmissionLevels_stop {n : Nat} (h : n < s.cfg.stopLen) :
    s.transmissionLevels[s.cfg.preambleLen + 8 * s.frameLen.toNat + n]? = some false := by
  have hlen : (s.cfg.preamble ++ s.frameBytes.flatMap byteBits).length =
      s.cfg.preambleLen + 8 * s.frameLen.toNat := by
    rw [List.length_append, length_flatMap_byteBits, State.length_frameBytes, Config.preambleLen]
  rw [State.transmissionLevels, List.getElem?_append_right (by omega), hlen, Nat.add_sub_cancel_left,
    List.getElem?_replicate_of_lt h]

end Levels

/-! ### A tick sends the next level -/

/-- The level of a tick is the next one of the transmission (R115 to R117). -/
theorem FramerInv.getElem?_ticksTaken {s : State} (hs : FramerInv s) (hp : s.phase ≠ .idle) :
    s.transmissionLevels[s.ticksTaken]? = some s.tickAction.line := by
  cases hphase : s.phase with
  | idle => exact absurd hphase hp
  | preamble =>
    have hpre := (hs.preamble hphase).preCnt
    have hbit : s.cfg.preamble[s.preCnt.toNat]? = some s.preambleBit := by
      have hlt : s.preCnt.toNat < s.cfg.preamble.length := hpre
      simp [State.preambleBit, hlt]
    have hline : s.tickAction.line = s.preambleBit := by
      rw [s.tickAction_preamble hphase]
      rcases s.tickPreamble_cases with ⟨-, ht⟩ | ⟨-, -, ht⟩ | ⟨-, -, ht⟩ <;> simp [ht]
    rw [State.ticksTaken_preamble hphase, s.getElem?_transmissionLevels_preamble hpre, hbit, hline]
  | payload =>
    have hline : s.tickAction.line = s.payloadBit := by
      rw [s.tickAction_payload hphase]
      rcases s.tickPayload_cases with ⟨-, ht⟩ | ⟨-, -, ht⟩ | ⟨-, -, ht⟩ <;> simp [ht]
    rw [State.ticksTaken_payload hphase,
      s.getElem?_transmissionLevels_payload (hs.payload hphase).byteIdx s.bitIdx.isLt, hline]
    rfl
  | stop =>
    have hline : s.tickAction.line = false := by
      rw [s.tickAction_stop hphase]
      rcases s.tickStop_cases with ⟨-, ht⟩ | ⟨-, ht⟩ <;> simp [ht]
    rw [State.ticksTaken_stop hphase, s.getElem?_transmissionLevels_stop (hs.stop hphase).stopCnt, hline]

/-- A tick that does not end the transmission keeps its levels. -/
theorem State.transmissionLevels_tickAction {s : State} (h : s.tickAction.phase ≠ .idle) :
    s.tickAction.transmissionLevels = s.transmissionLevels := by
  rcases s.tickAction_frame with hidle | ⟨-, hbase, hlen⟩
  · exact absurd hidle h
  · simp only [State.transmissionLevels, State.frameBytes, s.tickAction_cfg, s.tickAction_buf, hbase, hlen]

/-- A Preamble tick is one tick of the transmission (R115). -/
theorem FramerInv.ticksTaken_tickPreamble {s : State} (hs : FramerInv s) (hp : s.phase = .preamble) :
    s.tickPreamble.phase ≠ .idle ∧ s.tickPreamble.ticksTaken = s.preCnt.toNat + 1 := by
  have hnext := toNat_add_one_of_lt (hs.preamble hp).preCnt s.cfg.preambleLen_le.2
  rcases s.tickPreamble_cases with ⟨-, ht⟩ | ⟨hlast, hlen, ht⟩ | ⟨hlast, -, ht⟩ <;> rw [ht]
  · exact ⟨by simp [hp], (State.ticksTaken_preamble (by simpa using hp)).trans hnext⟩
  · refine ⟨nofun, (State.ticksTaken_stop rfl).trans ?_⟩
    show s.cfg.preambleLen + 8 * s.frameLen.toNat + 0 = _
    rw [← hnext, hlast, hlen]
    rfl
  · refine ⟨nofun, (State.ticksTaken_payload rfl).trans ?_⟩
    rw [← hnext, hlast]
    rfl

/-- A Payload tick is one tick of the transmission: the next bit, or the first of the next byte (R116). -/
theorem FramerInv.ticksTaken_tickPayload {s : State} (hs : FramerInv s) (hp : s.phase = .payload) :
    s.tickPayload.phase ≠ .idle ∧
      s.tickPayload.ticksTaken = s.cfg.preambleLen + (8 * s.byteIdx.toNat + s.bitIdx.toNat) + 1 := by
  have hnext : s.nextByteIdx.toNat = s.byteIdx.toNat + 1 := by
    have hbyte := (hs.payload hp).byteIdx
    have hlength := (hs.active (by simp [hp])).length
    have hfit := s.cfg.aw_le.2.2
    exact s.nextByteIdx_toNat (by omega)
  have hseven : (7 : BitVec 3).toNat = 7 := rfl
  have hzero : (0 : BitVec 3).toNat = 0 := rfl
  rcases s.tickPayload_cases with ⟨hbit, ht⟩ | ⟨hbit, -, ht⟩ | ⟨hbit, hlast, ht⟩ <;> rw [ht]
  · refine ⟨by simp [hp], (State.ticksTaken_payload (by simpa using hp)).trans ?_⟩
    have hbitNext : (s.bitIdx + 1).toNat = s.bitIdx.toNat + 1 := by bv_omega
    show s.cfg.preambleLen + (8 * s.byteIdx.toNat + (s.bitIdx + 1).toNat) = _
    rw [hbitNext, Nat.add_assoc, Nat.add_assoc]
  · refine ⟨by simp [hp], (State.ticksTaken_payload (by simpa using hp)).trans ?_⟩
    show s.cfg.preambleLen + (8 * s.nextByteIdx.toNat + (0 : BitVec 3).toNat) = _
    rw [hbit, hnext, hseven, hzero]
    omega
  · refine ⟨nofun, (State.ticksTaken_stop rfl).trans ?_⟩
    show s.cfg.preambleLen + 8 * s.frameLen.toNat + 0 = _
    rw [hbit, ← hlast, hnext, hseven]
    omega

/-- A Stop tick is one tick of the transmission, and the last one ends it (R117). -/
theorem FramerInv.ticksTaken_tickStop {s : State} (hs : FramerInv s) (hp : s.phase = .stop) :
    s.tickStop.phase = .idle ∧
        s.cfg.preambleLen + 8 * s.frameLen.toNat + s.stopCnt.toNat + 1 = s.transmissionTicks ∨
      s.tickStop.phase ≠ .idle ∧
        s.tickStop.ticksTaken = s.cfg.preambleLen + 8 * s.frameLen.toNat + s.stopCnt.toNat + 1 := by
  have hnext := toNat_add_one_of_lt (hs.stop hp).stopCnt s.cfg.stopLen_le.2
  rcases s.tickStop_cases with ⟨-, ht⟩ | ⟨hlast, ht⟩ <;> rw [ht]
  · refine .inr ⟨by simp [hp], (State.ticksTaken_stop (by simpa using hp)).trans ?_⟩
    show s.cfg.preambleLen + 8 * s.frameLen.toNat + (s.stopCnt + 1).toNat = _
    rw [hnext, Nat.add_assoc _ s.stopCnt.toNat]
  · refine .inl ⟨rfl, ?_⟩
    rw [State.transmissionTicks, ← hlast, hnext, Nat.add_assoc _ s.stopCnt.toNat]

/-- A tick moves a transmission on by one, and the last one ends it (R119). -/
theorem FramerInv.ticksTaken_tickAction {s : State} (hs : FramerInv s) (hp : s.phase ≠ .idle) :
    s.tickAction.phase = .idle ∧ s.ticksTaken + 1 = s.transmissionTicks ∨
      s.tickAction.phase ≠ .idle ∧ s.tickAction.ticksTaken = s.ticksTaken + 1 := by
  cases hphase : s.phase with
  | idle => exact absurd hphase hp
  | preamble =>
    rw [s.tickAction_preamble hphase, State.ticksTaken_preamble hphase]
    exact .inr (hs.ticksTaken_tickPreamble hphase)
  | payload =>
    rw [s.tickAction_payload hphase, State.ticksTaken_payload hphase]
    exact .inr (hs.ticksTaken_tickPayload hphase)
  | stop =>
    rw [s.tickAction_stop hphase, State.ticksTaken_stop hphase]
    exact hs.ticksTaken_tickStop hphase

theorem State.pendingLevels_idle {s : State} (h : s.phase = .idle) : s.pendingLevels = [] := by
  rw [State.pendingLevels, State.ticksTaken_idle h, ← s.length_transmissionLevels, List.drop_length]

/-- A tick sends the first of the pending levels and leaves the others pending. -/
theorem FramerInv.pendingLevels_eq_cons {s : State} (hs : FramerInv s) (hp : s.phase ≠ .idle) :
    s.pendingLevels = s.tickAction.line :: s.tickAction.pendingLevels := by
  obtain ⟨hlt, hlevel⟩ := List.getElem?_eq_some_iff.mp (hs.getElem?_ticksTaken hp)
  have hrest : s.tickAction.pendingLevels = s.transmissionLevels.drop (s.ticksTaken + 1) := by
    rcases hs.ticksTaken_tickAction hp with ⟨hidle, hend⟩ | ⟨hactive, htaken⟩
    · rw [State.pendingLevels_idle hidle, hend, ← s.length_transmissionLevels, List.drop_length]
    · rw [State.pendingLevels, State.transmissionLevels_tickAction hactive, htaken]
  rw [State.pendingLevels, List.drop_eq_getElem_cons hlt, hlevel, hrest]

/-! ### The host between the ticks (R64, R68) -/

/-- While a transmission is active, no operation but a tick touches the FramerContext: START is ignored (R68, R112). -/
theorem framerContext_of_active {i : Instr} {s t : State} (h : exec i s = .next t) (hi : i ≠ .tick)
    (hp : s.phase ≠ .idle) : t.framerContext = s.framerContext := by
  by_cases hstart : i = .cmdStart
  · subst hstart
    rcases execStart_cases s with ⟨-, hx⟩ | ⟨hidle, -⟩ | ⟨hidle, -⟩
    · obtain rfl := Host.Outcome.next.inj (hx.symm.trans h)
      rfl
    · exact absurd hidle hp
    · exact absurd hidle hp
  · exact onlyStartAndTickChangeTheFramerContext i s t h hstart hi

/-- The frame bytes are those of the active frame, which no operation changes (R63). -/
theorem exec_frameBytes {i : Instr} {s t : State} (h : exec i s = .next t) (hm : Memory.wf s.buf = true)
    (hp : s.phase ≠ .idle) :
    t.buf.readBytes s.frameBase.toNat s.frameLen.toNat = s.frameBytes :=
  Memory.readBytes_congr _ _ _ _ fun k hk =>
    activeFrameBytesNeverChange i s t hm h _ ⟨hp, Nat.le_add_right _ k, Nat.add_lt_add_left hk _⟩

/-- While a transmission is active, no operation but a tick changes the levels it has still to send. -/
theorem exec_pendingLevels {i : Instr} {s t : State} (h : exec i s = .next t) (hi : i ≠ .tick)
    (hm : Memory.wf s.buf = true) (hp : s.phase ≠ .idle) : t.pendingLevels = s.pendingLevels := by
  have hctx := framerContext_of_active h hi hp
  simp only [State.framerContext, FramerContext.mk.injEq] at hctx
  obtain ⟨hphase, hbyte, hbit, hpre, hstop, hbase, hlen⟩ := hctx
  have hcfg := (exec_effect i s t h).cfg_eq
  have hframe : t.frameBytes = s.frameBytes := by
    rw [State.frameBytes, hbase, hlen, exec_frameBytes h hm hp]
  simp only [State.pendingLevels, State.transmissionLevels, State.ticksTaken, State.transmissionTicks, hframe, hcfg,
    hphase, hbyte, hbit, hpre, hstop, hlen]

/-- A run with no more ticks than there are pending levels sends one of them at each tick, and nothing else. -/
theorem runInstrs_lineLevels {is : List Instr} {s v : State} (hs : s.Inv) (h : runInstrs is s = .next v)
    (hcount : is.count .tick ≤ s.pendingLevels.length) :
    lineLevels (v.emittedSince s) = s.pendingLevels.take (is.count .tick) := by
  induction is generalizing s with
  | nil =>
    cases h
    exact lineLevels_emittedSince_of_events rfl
  | cons i is ih =>
    obtain ⟨t, ht, hrun⟩ := runInstrs_cons_eq_next h
    have hres := exec_result i s t ht
    rw [State.emittedSince_trans (exec_effect i s t ht).events_prefix (runInstrs_events_prefix hrun), lineLevels_append]
    by_cases hi : i = .tick
    · subst hi
      obtain rfl : s.tickAction = t := Host.Outcome.next.inj ht
      rw [List.count_cons_self] at hcount ⊢
      have hp : s.phase ≠ .idle := by
        intro hidle
        simp [State.pendingLevels_idle hidle] at hcount
      have hpending := hs.framer.pendingLevels_eq_cons hp
      rw [hpending, List.length_cons] at hcount
      rw [s.lineLevels_tickAction hp, ih (hres.inv hs) hrun (by omega), hpending, List.take_succ_cons,
        List.singleton_append]
    · rw [List.count_cons_of_ne hi] at hcount ⊢
      rw [(hres.line_unchanged fun hn => hi hn.1).1, List.nil_append]
      by_cases hp : s.phase = .idle
      · have hnone : is.count .tick = 0 := by simpa [State.pendingLevels_idle hp] using hcount
        rw [ih (hres.inv hs) hrun (by simp [hnone]), hnone, List.take_zero, List.take_zero]
      · have hpending := exec_pendingLevels ht hi hs.bufCanonical hp
        rw [ih (hres.inv hs) hrun (by rwa [hpending]), hpending]

/-- An accepted START leaves every level of its transmission pending (R112). -/
theorem pendingLevels_of_start {s u : State} (hidle : s.phase = .idle) (h : exec .cmdStart s = .next u)
    (hp : u.phase = .preamble) : u.pendingLevels = u.transmissionLevels := by
  rcases execStart_cases s with ⟨hactive, -⟩ | ⟨-, -, hx⟩ | ⟨-, -, hx⟩
  · exact absurd hidle hactive
  · obtain rfl := Host.Outcome.next.inj (hx.symm.trans h)
    simp [hidle] at hp
  · obtain rfl := Host.Outcome.next.inj (hx.symm.trans h)
    rfl

/-- Settles O34: after START all levels are pending, and the run has a tick for each. -/
theorem transmissionIsUnaffectedByTheHost : Obligations.TransmissionIsUnaffectedByTheHost := by
  intro s u v is hs _ hidle hstart hp hcount hrun _
  have hpending := pendingLevels_of_start hidle hstart hp
  have hlength : u.pendingLevels.length = is.count .tick := by
    rw [hpending, u.length_transmissionLevels, hcount]
  rw [runInstrs_lineLevels ((exec_result _ s u hstart).inv hs) hrun hlength.ge, ← hlength, List.take_length, hpending]

end Sys2Proof.Machine
end

section
/-! PROOFS. The encoding of transactions (spec/30_encoding.md): which host words are refused (R91), the ports at one edge
(R73 to R76), and the words of the pseudo-instructions (R95). -/

namespace Sys2Proof

/-! ### Words outside the classes of R91 -/

/-- A register write that stands for an operation has REG 0 to 3, and for CMD an OP of 1 to 3 (R79, R85, R131). -/
theorem decodeRegWrite_fields {r : BitVec 4} {d : Word} {i : Instr} (h : decodeRegWrite r d = .instr i) :
    r.toNat < 4 ∧ (r = 0 → 1 ≤ (opField d).toNat ∧ (opField d).toNat < 4) := by
  rcases decodeRegWrite_cases r d i h with
    ⟨rfl, ⟨ho, -⟩ | ⟨ho, -⟩ | ⟨ho, -⟩⟩ | ⟨rfl, -⟩ | ⟨rfl, -⟩ | ⟨rfl, -⟩ <;> simp [*]

/-- A register read that stands for an operation has REG 1 to 10 (R142). -/
theorem decodeRegRead_fields {r : BitVec 4} {i : Instr} (h : decodeRegRead r = .instr i) :
    1 ≤ r.toNat ∧ r.toNat < 11 := by
  have hreject : ∀ r : BitVec 4, ¬ (1 ≤ r.toNat ∧ r.toNat < 11) → decodeRegRead r = .reject .notReadable := by decide
  by_contra hr
  rw [hreject r hr] at h
  cases h

/-! ### The CMD word (R84) -/

/-- The CMD word of R84 is STD in bits [5:4] over OP. -/
theorem cmdWord_eq_shift_or (std : BitVec 2) (op : BitVec 3) :
    cmdWord std op = (std.setWidth 32 <<< 4) ||| op.setWidth 32 := by
  revert std op; decide

end Sys2Proof

namespace Sys2Proof.Machine

/-! ### What the host port refuses (R91) -/

/-- Settles O4: a word that names an operation has one of the five layouts, whose fields can meet only the last class,
and there the memory access is refused for its address. -/
theorem reservedEncodingsAreRefused : Obligations.ReservedEncodingsAreRefused := by
  intro s w rest hs hclass
  rw [step_cons s _ rest hs, runArrival_host]
  cases hhost : decodeHost w with
  | reject r => rfl
  | instr i =>
    obtain ⟨hd, hi⟩ := (decodeHost_eq_instr w i).mp hhost
    have hw : w ≠ 0x4000000000000000#64 := fun hw =>
      hi (Decoded.instr.inj (hd.symm.trans ((decode_eq_tick w).mpr hw)))
    rcases decode_cases w i hd with ⟨r, d, rfl, hr⟩ | ⟨r, rfl, hr⟩ | ⟨a, x, rfl, rfl⟩ | ⟨a, rfl, rfl⟩ | ⟨htick, -⟩
    · obtain ⟨hreg, hop⟩ := decodeRegWrite_fields hr
      have hreserved : 4 ≤ r.toNat ∨ r = 0 ∧ ((opField d).toNat = 0 ∨ 4 ≤ (opField d).toNat) := by
        simpa [hw] using hclass
      rcases hreserved with hge | ⟨hcmd, hbad⟩
      · omega
      · have := hop hcmd
        omega
    · have hreg := decodeRegRead_fields hr
      have hreserved : r.toNat = 0 ∨ 11 ≤ r.toNat := by simpa [hw] using hclass
      omega
    · have haddr : s.cfg.memSize ≤ a.toNat := by simpa [hw] using hclass
      exact if_pos haddr
    · have haddr : s.cfg.memSize ≤ a.toNat := by simpa [hw] using hclass
      exact if_pos haddr
    · exact absurd htick hw

/-! ### What a host transaction does -/

/-- A host transaction has the result of an operation that is not TICK; a word that names none is refused just as a
MEM_READ past the end of BUF is (R83, R91). -/
theorem runArrival_host_result (w : TxnWord) (s : State) :
    ∃ t, runArrival (.host w) s = .next t ∧ ∃ i, i ≠ .tick ∧ OpResult s i t := by
  rw [runArrival_host]
  cases hd : decodeHost w with
  | instr i =>
    obtain ⟨t, ht, -⟩ := exec_answers i s
    exact ⟨t, ht, i, ((decodeHost_eq_instr w i).mp hd).2, exec_result i s t ht⟩
  | reject r => exact ⟨_, rfl, .memRead 0, nofun, .memReadRefused 0⟩

/-- An operation that is not TICK emits nothing, or the one value it returns (R22). -/
theorem OpResult.emitted {i : Instr} {s t : State} (h : OpResult s i t) (hi : i ≠ .tick) :
    t.emittedSince s = [] ∨ ∃ v, t.emittedSince s = [.read v] := by
  cases h with
  | tick => exact absurd rfl hi
  | read v => exact .inr ⟨v, s.emittedSince_emit _⟩
  | _ => exact .inl (State.emittedSince_of_events (List.append_nil _).symm)

/-- `host_rdata` is the one value the transaction emitted (R75). -/
theorem OpResult.readData_iff {i : Instr} {s t : State} (h : OpResult s i t) (hi : i ≠ .tick) (v : Word) :
    readData (t.emittedSince s) = some v ↔ t.emittedSince s = [.read v] := by
  rcases h.emitted hi with hes | ⟨u, hes⟩ <;> simp [hes, readData]

/-! ### The phase after a tick -/

theorem State.tickPreamble_phase_ne_idle {s : State} (h : s.phase = .preamble) : s.tickPreamble.phase ≠ .idle := by
  rcases s.tickPreamble_cases with ⟨-, ht⟩ | ⟨-, -, ht⟩ | ⟨-, -, ht⟩ <;> simp [ht, h]

/-- The tick that writes the last stop bit ends in Idle (R117). -/
theorem State.tickStop_phase_idle {s : State} (h : s.stopCnt.toNat + 1 = s.cfg.stopLen) :
    s.tickStop.phase = .idle := by
  have hcount := toNat_add_one_of_lt (c := s.stopCnt) (by omega) s.cfg.stopLen_le.2
  rcases s.tickStop_cases with ⟨hne, -⟩ | ⟨-, ht⟩
  · exact absurd (hcount.trans h) hne
  · rw [ht]
    rfl

/-! ### One edge of `clk` (R73 to R76) -/

/-- The state an edge offers its host transaction: that after its tick, if it has one (R76). -/
def Block.afterTick (b : Block) (e : Edge) : State := if e.tickI then b.core.tickAction else b.core

/-- `done_o` after an edge whose tick left `c` (R74). -/
def Block.donePulse (b : Block) (c : State) : Bool := (c.emittedSince b.core).contains .done

/-- The block after an edge whose transaction took `c` to `d` (R75). -/
def Block.afterAccepted (b : Block) (e : Edge) (c d : State) : Block where
  core := d
  doneO := b.donePulse c
  hostRead := readData (d.emittedSince c)
  busy := stallCycles e.hostTxn c
  writing := openBytes e.hostTxn c d
  cuts := b.cuts

/-- The block after an edge without a transaction whose tick left `c` (R75). -/
def Block.afterWaiting (b : Block) (c : State) : Block :=
  { b with core := c, doneO := b.donePulse c, hostRead := none, busy := b.busy - 1 }

section Edge

variable {b r : Block} {e : Edge}

theorem Block.afterTick_of_tick (h : e.tickI = true) : b.afterTick e = b.core.tickAction := if_pos h

theorem Block.afterTick_of_no_tick (h : e.tickI = false) : b.afterTick e = b.core := by simp [Block.afterTick, h]

theorem Block.hostReady_iff (hrst : e.rst = false) : b.hostReady e = true ↔ b.busy = 0 := by
  simp [Block.hostReady, hrst]

theorem Block.accepts_iff : b.accepts e = true ↔ e.hostValid = true ∧ b.hostReady e = true := by
  simp [Block.accepts]

/-- Without reset the two parts of an edge follow each other. -/
theorem Block.edge_of_no_reset (hrst : e.rst = false) : b.edge e = b.hostPart e (b.afterTick e) := by
  have htick : b.tickPart e = .next (b.afterTick e) := by
    unfold Block.tickPart Block.afterTick
    split <;> rfl
  simp [Block.edge, hrst, htick]

theorem Block.edge_accepted (hrst : e.rst = false) (hacc : b.accepts e = true) {d : State}
    (hd : runArrival (.host e.hostTxn) (b.afterTick e) = .next d) :
    b.edge e = .next (b.afterAccepted e (b.afterTick e) d) := by
  rw [Block.edge_of_no_reset hrst, Block.hostPart, if_pos hacc, hd]
  rfl

theorem Block.edge_waiting (hrst : e.rst = false) (hacc : ¬ b.accepts e = true) :
    b.edge e = .next (b.afterWaiting (b.afterTick e)) := by
  rw [Block.edge_of_no_reset hrst, Block.hostPart, if_neg hacc]
  rfl

/-- Everything an edge without reset can do: take its tick and then a transaction, or its tick alone. -/
theorem Block.edge_cases (hrst : e.rst = false) (h : b.edge e = .next r) :
    (b.accepts e = true ∧ ∃ d i, runArrival (.host e.hostTxn) (b.afterTick e) = .next d ∧ i ≠ .tick ∧
      OpResult (b.afterTick e) i d ∧ r = b.afterAccepted e (b.afterTick e) d) ∨
    (¬ b.accepts e = true ∧ r = b.afterWaiting (b.afterTick e)) := by
  by_cases hacc : b.accepts e = true
  · obtain ⟨d, hd, i, hi, hres⟩ := runArrival_host_result e.hostTxn (b.afterTick e)
    exact .inl ⟨hacc, d, i, hd, hi, hres, Host.Outcome.next.inj (h.symm.trans (Block.edge_accepted hrst hacc hd))⟩
  · exact .inr ⟨hacc, Host.Outcome.next.inj (h.symm.trans (Block.edge_waiting hrst hacc))⟩

/-- Only the tick of an edge writes the line. -/
theorem Block.edge_line (hrst : e.rst = false) (h : b.edge e = .next r) : r.core.line = (b.afterTick e).line := by
  rcases Block.edge_cases hrst h with ⟨-, d, i, -, hi, hres, rfl⟩ | ⟨-, rfl⟩
  · exact (hres.line_unchanged fun ⟨htick, _⟩ => hi htick).2
  · rfl

theorem Block.edge_doneO (hrst : e.rst = false) (h : b.edge e = .next r) :
    r.doneO = true ↔ Event.done ∈ (b.afterTick e).emittedSince b.core := by
  rcases Block.edge_cases hrst h with ⟨-, d, i, -, -, -, rfl⟩ | ⟨-, rfl⟩ <;> exact List.contains_iff_mem

theorem Block.resetEdge_doneO (b : Block) : b.resetEdge.doneO = false := by
  by_cases hbusy : b.busy = 0
  · rw [b.resetEdge_idle hbusy]
    rfl
  · rw [b.resetEdge_cut hbusy]
    rfl

end Edge

/-- Settles O47: without reset the line and the pulse are those of the tick alone. -/
theorem lineAndDoneOutputs : Obligations.LineAndDoneOutputs := by
  intro b r e h
  refine ⟨rfl, fun hrst hquiet => ?_, ?_⟩
  · rw [Block.lineO, Block.edge_line hrst h, Block.lineO]
    cases htick : e.tickI with
    | false => rw [Block.afterTick_of_no_tick htick]
    | true =>
      have hidle : b.core.phase = .idle := hquiet.resolve_left (by simp [htick])
      rw [Block.afterTick_of_tick htick, b.core.tickAction_idle hidle]
  · cases hrst : e.rst with
    | true =>
      obtain rfl : b.resetEdge = r := Host.Outcome.next.inj ((if_pos hrst).symm.trans h)
      simp [b.resetEdge_doneO]
    | false =>
      rw [Block.edge_doneO hrst h]
      cases htick : e.tickI with
      | false => simp [Block.afterTick_of_no_tick htick, State.emittedSince]
      | true => simp [Block.afterTick_of_tick htick, exec_tick]

/-- Settles O48: the state between the two parts of the edge is the one its transaction, if accepted, starts from. -/
theorem hostPortHandshake : Obligations.HostPortHandshake := by
  intro b r e hrst h
  refine ⟨b.afterTick e, fun htick => ?_, Block.afterTick_of_no_tick, Block.hostReady_iff hrst, fun hvalid hready => ?_,
    fun hn => ?_⟩
  · rw [Block.afterTick_of_tick htick, exec_tick]
  · rcases Block.edge_cases hrst h with ⟨-, d, i, hd, hi, hres, rfl⟩ | ⟨hacc, -⟩
    · exact ⟨hd, hres.readData_iff hi, rfl⟩
    · exact absurd (Block.accepts_iff.mpr ⟨hvalid, hready⟩) hacc
  · rcases Block.edge_cases hrst h with ⟨hacc, -⟩ | ⟨-, rfl⟩
    · exact absurd (Block.accepts_iff.mp hacc) hn
    · exact ⟨rfl, rfl, rfl⟩

/-- Settles O46: the transaction runs on the state the tick left, which is Idle after the last stop bit and not Idle
after a preamble bit. -/
theorem tickComesBeforeTheHostOnOneEdge : Obligations.TickComesBeforeTheHostOnOneEdge := by
  intro b e i c hrst htick hvalid hbusy hdec hc
  obtain rfl : b.core.tickAction = c := Host.Outcome.next.inj hc
  rw [← Block.afterTick_of_tick htick]
  obtain ⟨d, hd, -⟩ := exec_answers i (b.afterTick e)
  have hrun : runArrival (.host e.hostTxn) (b.afterTick e) = .next d := by rw [runArrival_host, hdec, ← hd]
  have hacc : b.accepts e = true := Block.accepts_iff.mpr ⟨hvalid, (Block.hostReady_iff hrst).mpr hbusy⟩
  refine ⟨d, _, hd, Block.edge_accepted hrst hacc hrun, rfl, ?_, ?_, fun v hv => ?_⟩
  · rintro rfl hp hlast hfits
    have hidle : (b.afterTick e).phase = .idle := by
      rw [Block.afterTick_of_tick htick, b.core.tickAction_stop hp, State.tickStop_phase_idle hlast]
    rcases execStart_cases (b.afterTick e) with ⟨hactive, -⟩ | ⟨-, hlarge, -⟩ | ⟨-, -, hx⟩
    · exact absurd hidle hactive
    · simp [hfits] at hlarge
    · obtain rfl := Host.Outcome.next.inj (hx.symm.trans hd)
      exact ⟨rfl, rfl⟩
  · rintro rfl hp
    have hactive : (b.afterTick e).phase ≠ .idle := by
      rw [Block.afterTick_of_tick htick, b.core.tickAction_preamble hp]
      exact State.tickPreamble_phase_ne_idle hp
    exact Host.Outcome.next.inj (hd.symm.trans (if_pos hactive))
  · rw [Block.afterAccepted, State.emittedSince_of_events hv]
    rfl

/-! ### The words of the pseudo-instructions (R95) -/

/-- The words of `mwb` are those of one `mw` per byte, the k-th at the k-th next address. -/
theorem mwbWords_eq_mapIdx (a : Word) (bs : List Byte) :
    mwbWords a bs = bs.mapIdx fun k x => memWriteWord (a + BitVec.ofNat 32 k) x := by
  induction bs generalizing a with
  | nil => rfl
  | cons b bs ih =>
    have hnext (k : Nat) : a + 1 + BitVec.ofNat 32 k = a + BitVec.ofNat 32 (k + 1) := by
      rw [BitVec.add_assoc, Nat.add_comm k 1, BitVec.ofNat_add]
      rfl
    simp only [mwbWords, ih, List.mapIdx_cons, hnext, BitVec.add_zero]

theorem flatten_mapIdx_singleton {α β : Type} (f : Nat → α → β) (xs : List α) :
    (xs.mapIdx fun k x => [f k x]).flatten = xs.mapIdx f := by
  rw [List.mapIdx_eq_zipIdx_map, List.mapIdx_eq_zipIdx_map, ← List.flatMap_def, ← List.map_eq_flatMap]

/-- Settles O49: the words are the layouts of R79 to R83, which the decoder reads back. -/
theorem pseudoInstructionsExpand : Obligations.PseudoInstructionsExpand := by
  refine ⟨fun n => ⟨?_, ?_⟩, fun n => ⟨?_, ?_⟩, ⟨rfl, ?_⟩, fun s d n => ⟨rfl, ?_⟩, fun a bs => ⟨?_, ?_⟩,
    fun n => ⟨?_, ?_⟩⟩
  · exact congrArg (fun d => [regWriteWord 0x0#4 d]) (cmdWord_eq_shift_or n 1#3)
  · simp [AsmLine.words, RegName.number, decodeRegWrite, decodeCmd]
  · exact congrArg (fun d => [regWriteWord 0x0#4 d]) (cmdWord_eq_shift_or n 2#3)
  · simp [AsmLine.words, RegName.number, decodeRegWrite, decodeCmd]
  · simp [AsmLine.words, RegName.number, decodeRegWrite, decodeCmd]
  · simp [AsmLine.words, RegName.number, decodeRegWrite]
  · exact (mwbWords_eq_mapIdx a bs).trans (flatten_mapIdx_singleton _ bs).symm
  · simp [AsmLine.words, mwbWords_eq_mapIdx, List.mapIdx_eq_zipIdx_map]
  · simp [AsmLine.words]
  · simp [AsmLine.words]

end Sys2Proof.Machine
end

section
/-! PROOFS. The codec (spec/40_codec.md): the symbols of a chunk (R96 to R102), the laws of the sequence functions (R103
to R107), what ENCODE and DECODE do in every state (R108, R109), and the round trip in memory. -/

namespace Sys2Proof.Machine

/-! ### The symbols of a chunk (R96, R97, R101) -/

theorem inv_eq_some (std : Standard) (x : BitVec 2) (v : Bool) : inv std x = some v ↔ x = sym std v := by
  cases std <;> revert x v <;> decide

theorem inv_eq_none (std : Standard) (x : BitVec 2) : inv std x = none ↔ x = 0b00#2 ∨ x = 0b11#2 := by
  cases std <;> revert x <;> decide

/-- The THOMAS symbol of a bit is the IEEE symbol of its complement (R96). -/
theorem sym_thomas (v : Bool) : sym .thomas v = sym .ieee (!v) := by
  cases v <;> rfl

theorem sym_not (std : Standard) (v : Bool) : sym std (!v) = ~~~(sym std v) := by
  cases std <;> cases v <;> rfl

theorem getElem_zero_sym (std : Standard) (v : Bool) :
    (sym std v)[0] = match std with
      | .ieee => v
      | .thomas => !v := by
  cases std <;> cases v <;> rfl

/-- The two bits of a symbol differ (R96). -/
theorem getElem_one_sym (std : Standard) (v : Bool) : (sym std v)[1] = !(sym std v)[0] := by
  cases std <;> cases v <;> rfl

@[simp] theorem getElem_zero_symbolAt (c : BitVec 16) (k : Nat) : (symbolAt c k)[0] = c.getLsbD (2 * k) := by
  simp [symbolAt]

@[simp] theorem getElem_one_symbolAt (c : BitVec 16) (k : Nat) : (symbolAt c k)[1] = c.getLsbD (2 * k + 1) := by
  simp [symbolAt]

/-- A symbol is invalid exactly when its two bits are the same. -/
theorem symbolAt_invalid_iff (c : BitVec 16) (k : Nat) :
    symbolAt c k = 0b00#2 ∨ symbolAt c k = 0b11#2 ↔ c.getLsbD (2 * k + 1) = c.getLsbD (2 * k) := by
  rw [← getElem_one_symbolAt, ← getElem_zero_symbolAt]
  generalize symbolAt c k = x
  revert x
  decide

theorem extractLsb'_not_of_le {w : Nat} (c : BitVec w) (i n : Nat) (h : i + n ≤ w) :
    (~~~c).extractLsb' i n = ~~~(c.extractLsb' i n) := by
  ext k hk
  simp [show i + k < w by omega]

/-- A chunk is its eight symbols. -/
theorem chunk_ext {c d : BitVec 16} (h : ∀ k < 8, symbolAt c k = symbolAt d k) : c = d := by
  apply BitVec.eq_of_getLsbD_eq
  intro i hi
  have hsym := h (i / 2) (by omega)
  rcases Nat.mod_two_eq_zero_or_one i with hpar | hpar
  · simpa [show 2 * (i / 2) = i by omega] using congrArg (·[0]) hsym
  · simpa [show 2 * (i / 2) + 1 = i by omega] using congrArg (·[1]) hsym

theorem mem_msbFirst (k : Nat) : k ∈ msbFirst ↔ k < 8 := by
  simp only [msbFirst, List.mem_cons, List.not_mem_nil, or_false]
  omega

/-! ### DEC16 (R101, R102) -/

theorem getLsbD_setBit (b : Byte) (k j : Nat) (v : Bool) (hj : j < 8) :
    (setBit b k v).getLsbD j = if j = k then v else b.getLsbD j := by
  have hbit : (1#8 <<< k).getLsbD j = decide (j = k) := by
    simp only [BitVec.getLsbD_shiftLeft, BitVec.getLsbD_one, hj]
    grind
  cases v with
  | false =>
    simp only [setBit, Bool.false_eq_true, if_false, BitVec.getLsbD_and, BitVec.getLsbD_not, hbit, hj]
    by_cases hjk : j = k <;> simp [hjk]
  | true =>
    simp only [setBit, if_true, BitVec.getLsbD_or, hbit]
    by_cases hjk : j = k <;> simp [hjk]

theorem decodeSymbols_nil (std : Standard) (c : BitVec 16) (b : Byte) : decodeSymbols std c [] b = some b := rfl

theorem decodeSymbols_cons (std : Standard) (c : BitVec 16) (k : Nat) (ks : List Nat) (b : Byte) :
    decodeSymbols std c (k :: ks) b =
      (inv std (symbolAt c k)).bind fun v => decodeSymbols std c ks (setBit b k v) := by
  rw [decodeSymbols]
  cases inv std (symbolAt c k) <;> rfl

theorem decodeSymbols_eq_none (std : Standard) (c : BitVec 16) (ks : List Nat) (b : Byte) :
    decodeSymbols std c ks b = none ↔ ∃ k ∈ ks, inv std (symbolAt c k) = none := by
  induction ks generalizing b with
  | nil => simp [decodeSymbols_nil]
  | cons k ks ih =>
    rw [decodeSymbols_cons]
    cases h : inv std (symbolAt c k) <;> simp [h, ih]

/-- What the loop of DEC16 gives: the data bits of the symbols it has been through, and elsewhere the bits it began
with. -/
theorem decodeSymbols_eq_some (std : Standard) (c : BitVec 16) (ks : List Nat) (hks : ∀ k ∈ ks, k < 8) (b out : Byte) :
    decodeSymbols std c ks b = some out ↔
      (∀ k ∈ ks, symbolAt c k = sym std (out.getLsbD k)) ∧ ∀ k < 8, k ∉ ks → out.getLsbD k = b.getLsbD k := by
  induction ks generalizing b with
  | nil =>
    rw [decodeSymbols_nil, Option.some.injEq]
    refine ⟨fun h => by simp [h], fun ⟨_, h⟩ => BitVec.eq_of_getLsbD_eq fun k hk => ?_⟩
    exact (h k hk List.not_mem_nil).symm
  | cons k ks ih =>
    obtain ⟨hk, hks⟩ := List.forall_mem_cons.mp hks
    rw [decodeSymbols_cons, List.forall_mem_cons, ← inv_eq_some]
    cases hinv : inv std (symbolAt c k) with
    | none => simp
    | some v =>
      rw [Option.bind_some, ih hks]
      constructor
      · rintro ⟨hin, hout⟩
        have hv : out.getLsbD k = v := by
          by_cases hmem : k ∈ ks
          · exact (Option.some.inj (hinv.symm.trans ((inv_eq_some _ _ _).mpr (hin k hmem)))).symm
          · rw [hout k hk hmem, getLsbD_setBit b k k v hk, if_pos rfl]
        refine ⟨⟨congrArg some hv.symm, hin⟩, fun j hj hjk => ?_⟩
        obtain ⟨hne, hmem⟩ := not_or.mp (mt List.mem_cons.mpr hjk)
        rw [hout j hj hmem, getLsbD_setBit b k j v hj, if_neg hne]
      · rintro ⟨⟨hv, hin⟩, hout⟩
        refine ⟨hin, fun j hj hmem => ?_⟩
        rw [getLsbD_setBit b k j v hj]
        split
        · next hjk => exact hjk ▸ (Option.some.inj hv).symm
        · next hjk => exact hout j hj (mt List.mem_cons.mp (not_or.mpr ⟨hjk, hmem⟩))

theorem dec16_eq_none (std : Standard) (c : BitVec 16) :
    dec16 std c = none ↔ ∃ k < 8, symbolAt c k = 0b00#2 ∨ symbolAt c k = 0b11#2 := by
  simp only [dec16, decodeSymbols_eq_none, mem_msbFirst, inv_eq_none]

theorem dec16_eq_some (std : Standard) (c : BitVec 16) (b : Byte) :
    dec16 std c = some b ↔ ∀ k < 8, symbolAt c k = sym std (b.getLsbD k) := by
  have hall (k : Nat) (hk : k ∈ msbFirst) : k < 8 := (mem_msbFirst k).mp hk
  rw [dec16, decodeSymbols_eq_some std c msbFirst hall]
  simp only [mem_msbFirst]
  exact and_iff_left fun k hk hn => absurd hk hn

/-- The symbols ENC8 appends are where DEC16 looks for them (R99, R101). -/
theorem symbolAt_enc8 (std : Standard) (b : Byte) {k : Nat} (hk : k < 8) :
    symbolAt (enc8 std b) k = sym std (b.getLsbD k) :=
  (dec16_eq_some std _ b).mp (dec16_enc8 std b) k hk

theorem dec16_eq_some_iff_enc8 (std : Standard) (c : BitVec 16) (b : Byte) :
    dec16 std c = some b ↔ c = enc8 std b := by
  constructor
  · intro h
    refine chunk_ext fun k hk => ?_
    rw [symbolAt_enc8 std b hk, (dec16_eq_some std c b).mp h k hk]
  · rintro rfl
    exact dec16_enc8 std b

theorem enc8_thomas (b : Byte) : enc8 .thomas b = enc8 .ieee (~~~b) := by
  refine chunk_ext fun k hk => ?_
  rw [symbolAt_enc8 _ _ hk, symbolAt_enc8 _ _ hk, sym_thomas]
  simp [hk]

theorem enc8_not (std : Standard) (b : Byte) : enc8 std (~~~b) = ~~~(enc8 std b) := by
  refine chunk_ext fun k hk => ?_
  have hnot : symbolAt (~~~(enc8 std b)) k = ~~~(symbolAt (enc8 std b) k) := extractLsb'_not_of_le _ _ _ (by omega)
  rw [hnot, symbolAt_enc8 _ _ hk, symbolAt_enc8 _ _ hk, ← sym_not]
  simp [hk]

theorem getLsbD_enc8_even (std : Standard) (b : Byte) {k : Nat} (hk : k < 8) :
    (enc8 std b).getLsbD (2 * k) = (sym std (b.getLsbD k))[0] := by
  rw [← getElem_zero_symbolAt, symbolAt_enc8 std b hk]

theorem getLsbD_enc8_odd (std : Standard) (b : Byte) {k : Nat} (hk : k < 8) :
    (enc8 std b).getLsbD (2 * k + 1) = (sym std (b.getLsbD k))[1] := by
  rw [← getElem_one_symbolAt, symbolAt_enc8 std b hk]

/-- Settles O17: the bits of a chunk are those of its symbols, and a symbol under THOMAS is that of the complement under
IEEE. -/
theorem enc8BitsAreTheSymbols : Obligations.Enc8BitsAreTheSymbols := by
  intro b k hk
  simp only [getLsbD_enc8_even _ _ hk, getLsbD_enc8_odd _ _ hk, getElem_one_sym, getElem_zero_sym, Bool.not_not,
    true_and]
  exact ⟨(enc8_thomas b).trans (enc8_not .ieee b), enc8_thomas b⟩

/-- Settles O18: DEC16 reads each data bit off its symbol, which ENC8 put there, and stops at a symbol whose two bits
are the same. -/
theorem dec16TakesExactlyTheEncodedChunks : Obligations.Dec16TakesExactlyTheEncodedChunks := by
  refine ⟨fun c std => ?_, fun c std b h k hk => ?_, fun c std => dec16_eq_some_iff_enc8 std c⟩
  · rw [← Option.ne_none_iff_isSome, ne_eq, dec16_eq_none]
    simp only [symbolAt_invalid_iff, not_exists, not_and, ne_eq]
  · obtain rfl := (dec16_eq_some_iff_enc8 std c b).mp h
    cases std
    · simp [getLsbD_enc8_even _ _ hk, getElem_zero_sym]
    · simp [getLsbD_enc8_odd _ _ hk, getElem_one_sym, getElem_zero_sym]

/-! ### The sequence functions (R103 to R107) -/

theorem encodeSeq_of_unrecognised (p : List Byte) {std : BitVec 2} (h : Standard.ofCode std = none) :
    encodeSeq p std = (.errorStandard, []) := by
  rw [encodeSeq, h]

theorem encodeSeq_of_recognised (p : List Byte) {std : BitVec 2} {st : Standard} (h : Standard.ofCode std = some st) :
    encodeSeq p std = (.ok, encodeBytes st p) := by
  rw [encodeSeq, h]

theorem encodeSeq_eq_ok (p out : List Byte) (std : BitVec 2) :
    encodeSeq p std = (.ok, out) ↔ ∃ st, Standard.ofCode std = some st ∧ encodeBytes st p = out := by
  cases h : Standard.ofCode std with
  | none => simp [encodeSeq_of_unrecognised p h]
  | some st => simp [encodeSeq_of_recognised p h]

section Decode

variable {e : List Byte} {std : BitVec 2} {st : Standard}

theorem decodeSeq_of_odd (hodd : e.length % 2 = 1) : decodeSeq e std = (.errorSize, []) := if_pos hodd

theorem decodeSeq_of_unrecognised (heven : e.length % 2 = 0) (h : Standard.ofCode std = none) :
    decodeSeq e std = (.errorStandard, []) := by
  rw [decodeSeq, if_neg (by omega), h]

theorem decodeSeq_of_invalid (heven : e.length % 2 = 0) (h : Standard.ofCode std = some st)
    (hnone : decodeChunks st e = none) : decodeSeq e std = (.invalidEncode, []) := by
  rw [decodeSeq, if_neg (by omega), h]
  simp only [hnone]

theorem decodeSeq_of_valid (heven : e.length % 2 = 0) (h : Standard.ofCode std = some st) {out : List Byte}
    (hout : decodeChunks st e = some out) : decodeSeq e std = (.ok, out) := by
  rw [decodeSeq, if_neg (by omega), h]
  simp only [hout]

end Decode

theorem decodeChunks_encodeBytes (std : Standard) (p : List Byte) :
    decodeChunks std (encodeBytes std p) = some p := by
  induction p with
  | nil => rfl
  | cons b p ih =>
    have hchunk : dec16 std ((enc8 std b).extractLsb' 8 8 ++ (enc8 std b).extractLsb' 0 8) = some b :=
      (congrArg (dec16 std) (append_chunkBytes _)).trans (dec16_enc8 std b)
    rw [encodeBytes_cons, decodeChunks_cons_cons, hchunk, ih]
    rfl

theorem encodeBytes_thomas (p : List Byte) : encodeBytes .thomas p = encodeBytes .ieee (p.map (~~~·)) := by
  simp only [encodeBytes, enc8_thomas, List.flatMap_map]

theorem encodeBytes_map_not (std : Standard) (p : List Byte) :
    encodeBytes std (p.map (~~~·)) = (encodeBytes std p).map (~~~·) := by
  induction p with
  | nil => rfl
  | cons b p ih =>
    rw [List.map_cons, encodeBytes_cons, encodeBytes_cons, enc8_not, extractLsb'_not_of_le _ _ _ (by omega),
      extractLsb'_not_of_le _ _ _ (by omega), ih]
    rfl

theorem decodeSeq_encodeBytes {std : BitVec 2} {st : Standard} (h : Standard.ofCode std = some st) (p : List Byte) :
    decodeSeq (encodeBytes st p) std = (.ok, p) :=
  decodeSeq_of_valid (by simp) h (decodeChunks_encodeBytes st p)

/-- The round trip of R107. -/
theorem decodeSeq_encodeSeq {p out : List Byte} {std : BitVec 2} (h : encodeSeq p std = (.ok, out)) :
    decodeSeq out std = (.ok, p) := by
  obtain ⟨st, hst, rfl⟩ := (encodeSeq_eq_ok p out std).mp h
  exact decodeSeq_encodeBytes hst p

/-- Settles O19: chunk by chunk, DEC16 inverts ENC8, and the THOMAS encoding is the IEEE encoding of the complement. -/
theorem codecSequenceLaws : Obligations.CodecSequenceLaws := by
  refine ⟨fun p out std => decodeSeq_encodeSeq, length_encodeSeq, fun e std hodd => ?_, fun p e std hstd => ?_,
    fun p => ?_, fun p => ?_⟩
  · rw [decodeSeq_of_odd hodd]
  · have hnone := (Standard.ofCode_none std).mpr hstd
    exact ⟨congrArg Prod.fst (encodeSeq_of_unrecognised p hnone),
      fun heven => congrArg Prod.fst (decodeSeq_of_unrecognised heven hnone)⟩
  · exact (encodeBytes_thomas p).trans (encodeBytes_map_not .ieee p)
  · have hieee : encodeBytes .thomas (p.map (~~~·)) = encodeBytes .ieee p := by
      simp [encodeBytes_thomas, Function.comp_def]
    exact (congrArg (decodeSeq · 0b01#2) hieee.symm).trans (decodeSeq_encodeBytes rfl _)

/-! ### The decode status (R104, R105) -/

/-- A decode of the content fails exactly at a chunk that DEC16 rejects, in any position (R104). -/
theorem decodeChunks_eq_none (std : Standard) : ∀ e : List Byte,
    decodeChunks std e = none ↔ ∃ j, ∃ h : 2 * j + 1 < e.length, dec16 std (e[2 * j] ++ e[2 * j + 1]) = none
  | [] => by simp [decodeChunks]
  | [x] => by simp [decodeChunks]
  | hi :: lo :: rest => by
    have ih := decodeChunks_eq_none std rest
    rw [decodeChunks_cons_cons, ← Nat.or_exists_add_one]
    cases hfirst : dec16 std (hi ++ lo) with
    | none => exact iff_of_true rfl (.inl ⟨by simp, hfirst⟩)
    | some b =>
      rw [Option.map_eq_none_iff, ih]
      constructor
      · rintro ⟨j, hj, h⟩
        exact .inr ⟨j, by simp only [List.length_cons]; omega, h⟩
      · rintro (⟨_, h⟩ | ⟨j, hj, h⟩)
        · exact nomatch hfirst.symm.trans h
        · exact ⟨j, by simp only [List.length_cons] at hj; omega, h⟩

/-- Each decoded byte is DEC16 of its own chunk (R104). -/
theorem getElem?_decodeChunks (std : Standard) : ∀ (e out : List Byte), decodeChunks std e = some out →
    ∀ (j : Nat) (_ : 2 * j + 1 < e.length), out[j]? = dec16 std (e[2 * j] ++ e[2 * j + 1])
  | [], _, _, j, hj => by simp at hj
  | [x], _, _, j, hj => by simp at hj
  | hi :: lo :: rest, out, h, j, hj => by
    rw [decodeChunks_cons_cons] at h
    cases hfirst : dec16 std (hi ++ lo) with
    | none => simp [hfirst] at h
    | some b =>
      rw [hfirst] at h
      obtain ⟨tl, htl, rfl⟩ := Option.map_eq_some_iff.mp h
      cases j with
      | zero => exact hfirst.symm
      | succ j =>
        simp only [List.length_cons] at hj
        exact getElem?_decodeChunks std rest tl htl j (by omega)

theorem Standard.ofCode_recognised {std : BitVec 2} (h : std = 0b00#2 ∨ std = 0b01#2) :
    ∃ st, Standard.ofCode std = some st := by
  rcases h with rfl | rfl
  · exact ⟨.ieee, rfl⟩
  · exact ⟨.thomas, rfl⟩

/-- Settles O20: the status is that of the first of the three checks that fails; a chunk fails for a bad symbol. -/
theorem decodeStatusIsDecidedInOrder : Obligations.DecodeStatusIsDecidedInOrder := by
  intro e std bad
  have hbad (st : Standard) : decodeChunks st e = none ↔ bad := by
    simp only [decodeChunks_eq_none, dec16_eq_none]
    constructor
    · rintro ⟨j, hj, k, hk, hsym⟩
      exact ⟨j, k, hj, hk, hsym⟩
    · rintro ⟨j, k, hj, hk, hsym⟩
      exact ⟨j, hj, k, hk, hsym⟩
  refine ⟨decodeSeq_of_odd, fun heven h => decodeSeq_of_unrecognised heven ((Standard.ofCode_none std).mpr h),
    fun heven h hb => ?_, fun heven h hb => ?_, fun h => ?_, fun h => ?_⟩
  · obtain ⟨st, hst⟩ := Standard.ofCode_recognised h
    exact decodeSeq_of_invalid heven hst ((hbad st).mpr hb)
  · obtain ⟨st, hst⟩ := Standard.ofCode_recognised h
    obtain ⟨out, hout⟩ := Option.ne_none_iff_exists'.mp (mt (hbad st).mp hb)
    refine ⟨out, decodeSeq_of_valid heven hst hout, ?_⟩
    rw [length_decodeChunks st e out hout]
    omega
  · rw [encodeSeq_of_unrecognised e ((Standard.ofCode_none std).mpr h)]
  · obtain ⟨st, hst⟩ := Standard.ofCode_recognised h
    rw [encodeSeq_of_recognised e hst]

/-! ### Sequences read from memory -/

theorem Memory.getElem?_readBytes (m : Memory) (a : Nat) {n k : Nat} (hk : k < n) :
    (m.readBytes a n)[k]? = some (m.readByte (a + k)) := by
  rw [List.getElem?_eq_getElem (by simpa using hk), Memory.getElem_readBytes]

/-- The two bytes an encode of a region makes of its byte `k` (R103). -/
theorem getElem?_encodeBytes_readBytes (std : Standard) (m : Memory) (a : Nat) {n k : Nat} (hk : k < n) :
    (encodeBytes std (m.readBytes a n))[2 * k]? = some ((enc8 std (m.readByte (a + k))).extractLsb' 8 8) ∧
    (encodeBytes std (m.readBytes a n))[2 * k + 1]? = some ((enc8 std (m.readByte (a + k))).extractLsb' 0 8) := by
  obtain ⟨hhigh, hlow⟩ := getElem?_encodeBytes std (m.readBytes a n) k
  rw [hhigh, hlow, Memory.getElem?_readBytes m a hk]
  exact ⟨rfl, rfl⟩

/-- A decode of a region of memory fails exactly at a chunk of it that DEC16 rejects (R104). -/
theorem decodeChunks_readBytes_eq_none (std : Standard) (m : Memory) (a n : Nat) :
    decodeChunks std (m.readBytes a n) = none ↔
      ∃ j < n / 2, dec16 std (m.readByte (a + 2 * j) ++ m.readByte (a + 2 * j + 1)) = none := by
  simp only [decodeChunks_eq_none, Memory.getElem_readBytes, Memory.length_readBytes, exists_prop,
    show ∀ j, 2 * j + 1 < n ↔ j < n / 2 by omega, Nat.add_assoc]

/-- Where DEC16 rejects no chunk of a region of even length, the decode ends OK, with DEC16 of chunk `j` as its byte `j`
(R104, R105). -/
theorem decodeSeq_readBytes_of_valid {std : BitVec 2} {st : Standard} (hst : Standard.ofCode std = some st) (m : Memory)
    (a : Nat) {n : Nat} (heven : n % 2 = 0)
    (hvalid : ∀ j < n / 2, dec16 st (m.readByte (a + 2 * j) ++ m.readByte (a + 2 * j + 1)) ≠ none) :
    ∃ out, decodeSeq (m.readBytes a n) std = (.ok, out) ∧ out.length = n / 2 ∧
      ∀ j < n / 2, dec16 st (m.readByte (a + 2 * j) ++ m.readByte (a + 2 * j + 1)) = out[j]? := by
  have hne : decodeChunks st (m.readBytes a n) ≠ none := fun hnone =>
    let ⟨j, hj, hbad⟩ := (decodeChunks_readBytes_eq_none st m a n).mp hnone
    hvalid j hj hbad
  obtain ⟨out, hout⟩ := Option.ne_none_iff_exists'.mp hne
  refine ⟨out, decodeSeq_of_valid (by simpa using heven) hst hout, ?_, fun j hj => ?_⟩
  · simpa using length_decodeChunks st _ out hout
  · rw [getElem?_decodeChunks st _ out hout j (by rw [Memory.length_readBytes]; omega), Memory.getElem_readBytes,
      Memory.getElem_readBytes]
    rfl

/-! ### The codec commands (R106 to R109) -/

theorem decodeCmd_encode {v : Word} (h : opField v = 1#3) : decodeCmd v = .instr (.cmdEncode (stdField v)) := if_pos h

theorem decodeCmd_decode {v : Word} (h : opField v = 2#3) : decodeCmd v = .instr (.cmdDecode (stdField v)) := by
  simp [decodeCmd, h]

/-- A host write to CMD runs the command its word stands for (R84, R127). -/
theorem runArrival_cmdWrite (s : State) {v : Word} {i : Instr} (h : decodeCmd v = .instr i) (hi : i ≠ .tick) :
    runArrival (.host (regWriteWord 0x0#4 v)) s = exec i s :=
  runArrival_host_of_decode _ i s ((decode_regWriteWord 0x0#4 v).trans h) hi

theorem overlap_eq_true (a n b m : Nat) : overlap a n b m = true ↔ RegionsOverlap a n b m := overlap_iff a n b m

theorem overlap_eq_false (a n b m : Nat) : overlap a n b m = false ↔ ¬ RegionsOverlap a n b m := by
  rw [← overlap_eq_true, Bool.not_eq_true]

theorem State.borrowViolated_eq_true (s : State) (a n : Nat) :
    s.borrowViolated a n = true ↔ s.WritesActiveFrame a n := s.borrowViolated_iff a n

theorem State.borrowViolated_eq_false (s : State) (a n : Nat) :
    s.borrowViolated a n = false ↔ ¬ s.WritesActiveFrame a n := by
  rw [← State.borrowViolated_eq_true, Bool.not_eq_true]

/-- What a codec command that ends OK leaves: its result at its destination and STATUS OK (R106). -/
def State.codecWrote (s : State) (out : List Byte) : State := (s.storeBytes s.dstAddr out).setStatus .ok

theorem State.readByte_codecWrote_inside {s : State} (hm : Memory.wf s.buf = true) {out : List Byte} {i : Nat}
    {x : Byte} (hx : out[i]? = some x) : (s.codecWrote out).readByte (s.dst.toNat + i) = x := by
  obtain ⟨hi, rfl⟩ := List.getElem?_eq_some_iff.mp hx
  exact Memory.readByte_writeBytes_inside s.buf hm s.dst.toNat i out hi

theorem State.readByte_codecWrote_outside {s : State} (hm : Memory.wf s.buf = true) (out : List Byte) {x : Nat}
    (hx : ¬ (s.dst.toNat ≤ x ∧ x < s.dst.toNat + out.length)) : (s.codecWrote out).readByte x = s.readByte x :=
  Memory.readByte_writeBytes_outside s.buf hm s.dst.toNat x out (by omega)

theorem execEncode_eq (s : State) (std : BitVec 2) :
    exec (.cmdEncode std) s = .next (s.codecCommand (2 * s.lenBytes) fun p => encodeSeq p std) := rfl

theorem execDecode_eq (s : State) (std : BitVec 2) :
    exec (.cmdDecode std) s = .next (s.codecCommand (s.lenBytes / 2) fun e => decodeSeq e std) := rfl

/-- Settles O21: the refusals, the error and the OK result are the cases of the shape both codec commands share; the
bytes of an OK result are the chunks of ENC8. -/
theorem encodeCommandDoesWhatR108Says : Obligations.EncodeCommandDoesWhatR108Says := by
  intro s std hm a d n inRange
  rw [execEncode_eq]
  refine ⟨fun hr => ?_, fun hr ho => ?_, fun hr ho hstd => ?_, fun hr ho hstd hf => ?_,
    fun pol hr ho hstd hf => ?_, fun v hop hv => ?_⟩
  · exact congrArg _ (s.codecCommand_outOfRange _ _ hr)
  · exact congrArg _ (s.codecCommand_overlap _ _ hr ((overlap_eq_true ..).mpr ho))
  · have hres := encodeSeq_of_unrecognised (s.buf.readBytes a n) ((Standard.ofCode_none std).mpr hstd)
    exact congrArg _ (s.codecCommand_error _ _ hr ((overlap_eq_false ..).mpr ho) _ _ nofun hres)
  · obtain ⟨st, hst⟩ := Standard.ofCode_recognised hstd
    have hres := encodeSeq_of_recognised (s.buf.readBytes a n) hst
    exact congrArg _ (s.codecCommand_borrow _ _ hr ((overlap_eq_false ..).mpr ho) _ hres
      ((s.borrowViolated_eq_true ..).mpr hf))
  · have hres := encodeSeq_of_recognised (s.buf.readBytes a n) ((Standard.ofCode_some std pol).mpr hstd)
    refine ⟨s.codecWrote _, congrArg _ (s.codecCommand_ok _ _ hr ((overlap_eq_false ..).mpr ho) _ hres
      ((s.borrowViolated_eq_false ..).mpr hf)), rfl, fun k hk => ?_, fun x hx => ?_⟩
    · obtain ⟨hhigh, hlow⟩ := getElem?_encodeBytes_readBytes pol s.buf a hk
      exact ⟨State.readByte_codecWrote_inside hm hhigh, State.readByte_codecWrote_inside hm hlow⟩
    · exact State.readByte_codecWrote_outside hm _ (by simpa using hx)
  · subst hv
    exact runArrival_cmdWrite s (decodeCmd_encode hop) nofun

/-- Settles O22: the same cases of the shared shape; the content check is DEC16 on every chunk of the source region. -/
theorem decodeCommandDoesWhatR109Says : Obligations.DecodeCommandDoesWhatR109Says := by
  intro s std hm a d n m inRange chunk
  rw [execDecode_eq]
  have hlen : (s.buf.readBytes a n).length = n := s.buf.length_readBytes a n
  refine ⟨fun hr => ?_, fun hr ho => ?_, fun hr ho hodd => ?_, fun hr ho heven hstd => ?_,
    fun pol hr ho heven hstd => ?_, fun v hop hv => ?_⟩
  · exact congrArg _ (s.codecCommand_outOfRange _ _ hr)
  · exact congrArg _ (s.codecCommand_overlap _ _ hr ((overlap_eq_true ..).mpr ho))
  · have hres := decodeSeq_of_odd (std := std) (hlen.symm ▸ hodd)
    exact congrArg _ (s.codecCommand_error _ _ hr ((overlap_eq_false ..).mpr ho) _ _ nofun hres)
  · have hres := decodeSeq_of_unrecognised (hlen.symm ▸ heven) ((Standard.ofCode_none std).mpr hstd)
    exact congrArg _ (s.codecCommand_error _ _ hr ((overlap_eq_false ..).mpr ho) _ _ nofun hres)
  · have hst := (Standard.ofCode_some std pol).mpr hstd
    have hdisj := (overlap_eq_false ..).mpr ho
    refine ⟨fun hbad => ?_, fun hgood hf => ?_, fun hgood hf => ?_⟩
    · have hres := decodeSeq_of_invalid (hlen.symm ▸ heven) hst ((decodeChunks_readBytes_eq_none ..).mpr hbad)
      exact congrArg _ (s.codecCommand_error _ _ hr hdisj _ _ nofun hres)
    · obtain ⟨out, hres, -, -⟩ := decodeSeq_readBytes_of_valid hst s.buf a heven hgood
      exact congrArg _ (s.codecCommand_borrow _ _ hr hdisj _ hres ((s.borrowViolated_eq_true ..).mpr hf))
    · obtain ⟨out, hres, houtlen, hbytes⟩ := decodeSeq_readBytes_of_valid hst s.buf a heven hgood
      refine ⟨s.codecWrote out, congrArg _ (s.codecCommand_ok _ _ hr hdisj _ hres
        ((s.borrowViolated_eq_false ..).mpr hf)), rfl, fun j hj => ?_, fun x hx => ?_⟩
      · have hsome := List.getElem?_eq_getElem (hj.trans_eq houtlen.symm)
        rw [State.readByte_codecWrote_inside hm hsome, ← hsome]
        exact (hbytes j hj).symm
      · exact State.readByte_codecWrote_outside hm out (by rwa [houtlen])
  · subst hv
    exact runArrival_cmdWrite s (decodeCmd_decode hop) nofun

/-! ### The round trip in memory (R107) -/

/-- A codec command that is not refused and leaves OK has written an OK result (R106). -/
theorem State.codecCommand_wrote {s : State} {outLen : Nat} {result : List Byte → Status × List Byte}
    (hrefused : (s.codecCommand outLen result).refused = false)
    (hstatus : (s.codecCommand outLen result).status = .ok) :
    ∃ out, result (s.buf.readBytes s.srcAddr s.lenBytes) = (.ok, out) ∧
      s.codecCommand outLen result = s.codecWrote out := by
  rcases s.codecCommand_cases outLen result with ⟨r, -, h⟩ | ⟨st, out, hst, -, h⟩ | ⟨out, hres, -, -, h⟩
  · simp [h] at hrefused
  · simp [h, hst] at hstatus
  · exact ⟨out, hres, h⟩

/-- Settles O23: the source region of the DECODE holds just what the ENCODE wrote, which decodes to the payload. -/
theorem decodeCommandRestoresAnEncodedPayload : Obligations.DecodeCommandRestoresAnEncodedPayload := by
  intro s t u v std back hm _ hencode htrefused htstatus hu hulen hdecode hvrefused
  cases hencode
  cases hdecode
  obtain ⟨out, hout, ht⟩ := State.codecCommand_wrote htrefused htstatus
  rw [ht] at hu
  have hlen : out.length = 2 * s.len.toNat := encode_length s std out hout
  have hbuf : u.buf = s.buf.writeBytes s.dst.toNat out := congrArg State.buf hu
  have hsrc : u.src = s.dst := congrArg State.src hu
  have hdst : u.dst = back := congrArg State.dst hu
  have hread : u.buf.readBytes u.srcAddr u.lenBytes = out := by
    rw [hbuf, State.srcAddr, hsrc, State.lenBytes, hulen, ← hlen, s.buf.readBytes_writeBytes hm]
  have hres : decodeSeq (u.buf.readBytes u.srcAddr u.lenBytes) std = (.ok, s.buf.readBytes s.srcAddr s.lenBytes) :=
    hread.symm ▸ decodeSeq_encodeSeq hout
  obtain ⟨hrange, hdisj, hborrow⟩ := State.codecCommand_accepted hvrefused
  have hum : Memory.wf u.buf = true := hbuf ▸ Memory.wf_writeBytes s.buf hm _ out
  rw [u.codecCommand_ok _ (fun e => decodeSeq e std) hrange hdisj _ hres (hborrow _ hres)]
  refine ⟨rfl, fun k hk => ?_⟩
  rw [← hdst]
  exact State.readByte_codecWrote_inside hum (s.buf.getElem?_readBytes s.srcAddr hk)

end Sys2Proof.Machine
end

section
/-! PROOFS. The transmission framer (spec/41_framer.md): what START and a tick of each phase do (R112 to R117), what they
read and write (R113, R125), and the phases, the ticks and the events of a whole transmission (R118 to R120). -/

namespace Sys2Proof.Machine

/-! ### START (R112) -/

theorem decodeCmd_start {v : Word} (h : opField v = 3#3) : decodeCmd v = .instr .cmdStart := by
  simp [decodeCmd, h]

theorem State.frameTooLarge_eq_false (s : State) :
    s.frameTooLarge = false ↔ s.len.toNat ≤ s.cfg.maxFrameLen ∧ s.src.toNat + s.len.toNat ≤ s.cfg.memSize := by
  rw [← Bool.not_eq_true, s.frameTooLarge_iff, not_or, Nat.not_lt, Nat.not_lt]

theorem execStart_active {s : State} (h : s.phase ≠ .idle) : execStart s = .next s := if_pos h

theorem execStart_tooLarge {s : State} (hidle : s.phase = .idle) (h : s.frameTooLarge = true) :
    execStart s = .next (s.refuse .frameOutOfRange) :=
  (if_neg (not_not.mpr hidle)).trans (if_pos h)

theorem execStart_accepted {s : State} (hidle : s.phase = .idle) (h : s.frameTooLarge = false) :
    execStart s = .next s.beginFrame :=
  (if_neg (not_not.mpr hidle)).trans (if_neg (ne_true_of_eq_false h))

/-- A START that leads from Idle to Preamble was accepted. -/
theorem eq_beginFrame_of_start {s u : State} (hidle : s.phase = .idle) (h : exec .cmdStart s = .next u)
    (hp : u.phase = .preamble) : s.frameTooLarge = false ∧ u = s.beginFrame := by
  rcases execStart_cases s with ⟨hactive, -⟩ | ⟨-, -, hx⟩ | ⟨-, hfits, hx⟩
  · exact absurd hidle hactive
  · obtain rfl := Host.Outcome.next.inj (hx.symm.trans h)
    exact absurd (hidle.symm.trans hp) nofun
  · exact ⟨hfits, (Host.Outcome.next.inj (hx.symm.trans h)).symm⟩

/-- Settles O24: the three outcomes of START, and the command of every CMD word with OP 3. -/
theorem startDoesWhatR112Says : Obligations.StartDoesWhatR112Says := by
  intro s
  refine ⟨execStart_active, fun hidle hlarge => ?_, fun hidle hlen hregion => ?_, fun v hop => ?_⟩
  · exact execStart_tooLarge hidle (s.frameTooLarge_iff.mpr hlarge)
  · exact execStart_accepted hidle (s.frameTooLarge_eq_false.mpr ⟨hlen, hregion⟩)
  · exact runArrival_cmdWrite s (decodeCmd_start hop) nofun

/-! ### A tick of each phase (R115 to R117) -/

theorem State.preambleBit_eq_getElem {s : State} (h : s.preCnt.toNat < s.cfg.preamble.length) :
    s.preambleBit = s.cfg.preamble[s.preCnt.toNat] := by
  simp [State.preambleBit, h]

/-- Settles O26: the three cases of a Preamble tick, whose counter does not wrap. -/
theorem preambleTickDoesWhatR115Says : Obligations.PreambleTickDoesWhatR115Says := by
  intro s hp h v last
  have hbit : s.preambleBit = v := State.preambleBit_eq_getElem h
  have hlastBit : (s.preCnt + 1).toNat = s.cfg.preambleLen ↔ last := by
    rw [toNat_add_one_of_lt h s.cfg.preambleLen_le.2]
  have hempty : s.frameLen = 0 ↔ s.frameLen.toNat = 0 := BitVec.toNat_inj.symm
  rw [exec_tick, s.tickAction_preamble hp]
  rcases s.tickPreamble_cases with ⟨hmore, ht⟩ | ⟨hlast, hlen, ht⟩ | ⟨hlast, hlen, ht⟩ <;> rw [ht, hbit]
  · exact ⟨fun _ => rfl, fun hl => absurd (hlastBit.mpr hl) hmore, fun hl => absurd (hlastBit.mpr hl) hmore⟩
  · exact ⟨fun hn => absurd (hlastBit.mp hlast) hn, fun _ _ => rfl, fun _ hne => absurd (hempty.mp hlen) hne⟩
  · exact ⟨fun hn => absurd (hlastBit.mp hlast) hn, fun _ he => absurd (hempty.mpr he) hlen, fun _ _ => rfl⟩

/-- In Payload the byte cursor moves on by one, because a frame length fits its register (R16, R49). -/
theorem FramerInv.nextByteIdx_toNat {s : State} (hs : FramerInv s) (hp : s.phase = .payload) :
    s.nextByteIdx.toNat = s.byteIdx.toNat + 1 := by
  have hbyte := (hs.payload hp).byteIdx
  have hlength := (hs.active (by simp [hp])).length
  have hfit := s.cfg.aw_le.2.2
  exact s.nextByteIdx_toNat (by omega)

/-- The byte the next Payload tick reads is a byte of BUF (R49, R116). -/
theorem FramerInv.framePos_lt_memSize {s : State} (hs : FramerInv s) (hp : s.phase = .payload) :
    s.framePos < s.cfg.memSize := by
  obtain ⟨-, -, hlt⟩ := hs.inActiveFrame_framePos hp
  exact Nat.lt_of_lt_of_le hlt (hs.active (by simp [hp])).region

/-- Settles O27: the three cases of a Payload tick, whose cursors do not wrap. -/
theorem payloadTickDoesWhatR116Says : Obligations.PayloadTickDoesWhatR116Says := by
  intro s hs hp addr v
  have hnext := hs.framer.nextByteIdx_toNat hp
  have hseven : s.bitIdx = 7 ↔ s.bitIdx.toNat = 7 := BitVec.toNat_inj.symm
  have hlastByte : s.nextByteIdx = s.frameLen ↔ s.byteIdx.toNat + 1 = s.frameLen.toNat := by
    rw [← hnext, BitVec.toNat_inj]
  rw [exec_tick, s.tickAction_payload hp]
  refine ⟨hs.framer.framePos_lt_memSize hp, ?_⟩
  rcases s.tickPayload_cases with ⟨hbit, ht⟩ | ⟨hbit, hmore, ht⟩ | ⟨hbit, hlast, ht⟩ <;>
    rw [ht]
  · have hbitNext : (s.bitIdx + 1).toNat = s.bitIdx.toNat + 1 := by bv_omega
    exact ⟨fun _ => ⟨_, hbitNext, rfl⟩, fun h7 => absurd (hseven.mpr h7) hbit,
      fun h7 => absurd (hseven.mpr h7) hbit⟩
  · exact ⟨fun hlt => absurd (hseven.mp hbit) hlt.ne, fun _ _ => ⟨_, hnext, rfl⟩,
      fun _ hl => absurd (hlastByte.mpr hl) hmore⟩
  · exact ⟨fun hlt => absurd (hseven.mp hbit) hlt.ne, fun _ hn => absurd (hlastByte.mp hlast) hn,
      fun _ _ => by rw [hlast]; rfl⟩

/-- Settles O28: the two cases of a Stop tick, whose counter does not wrap. -/
theorem stopTickDoesWhatR117Says : Obligations.StopTickDoesWhatR117Says := by
  intro s hp h
  have hcount := toNat_add_one_of_lt h s.cfg.stopLen_le.2
  rw [exec_tick, s.tickAction_stop hp, ← hcount]
  rcases s.tickStop_cases with ⟨hmore, ht⟩ | ⟨hlast, ht⟩ <;> rw [ht]
  · exact ⟨fun _ => rfl, fun hl => absurd hl hmore⟩
  · refine ⟨fun hn => absurd hlast hn, fun _ => ?_⟩
    simp [State.emit, State.lineWrite]

/-! ### What the framer reads (R111, R113, R125) -/

/-- `s` with other values in the registers of the codec. -/
def State.withCodecRegisters (s : State) (src dst len : Word) (st : Status) : State :=
  { s with src := src, dst := dst, len := len, status := st }

/-- A tick does the same whatever the registers of the codec hold (R111, R113). -/
theorem State.tickAction_withCodecRegisters (s : State) (src dst len : Word) (st : Status) :
    (s.withCodecRegisters src dst len st).tickAction = s.tickAction.withCodecRegisters src dst len st := by
  cases hp : s.phase with
  | idle => rw [s.tickAction_idle hp, (s.withCodecRegisters src dst len st).tickAction_idle hp]
  | preamble =>
    rw [s.tickAction_preamble hp, (s.withCodecRegisters src dst len st).tickAction_preamble hp]
    rcases s.tickPreamble_cases with ⟨hmore, ht⟩ | ⟨hlast, hlen, ht⟩ | ⟨hlast, hlen, ht⟩ <;> rw [ht]
    · exact if_neg hmore
    · exact (if_pos hlast).trans (if_pos hlen)
    · exact (if_pos hlast).trans (if_neg hlen)
  | payload =>
    rw [s.tickAction_payload hp, (s.withCodecRegisters src dst len st).tickAction_payload hp]
    rcases s.tickPayload_cases with ⟨hbit, ht⟩ | ⟨hbit, hmore, ht⟩ | ⟨hbit, hlast, ht⟩ <;> rw [ht]
    · exact if_neg hbit
    · exact (if_pos hbit).trans (if_neg hmore)
    · exact (if_pos hbit).trans (if_pos hlast)
  | stop =>
    rw [s.tickAction_stop hp, (s.withCodecRegisters src dst len st).tickAction_stop hp]
    rcases s.tickStop_cases with ⟨hmore, ht⟩ | ⟨hlast, ht⟩ <;> rw [ht]
    · exact if_neg hmore
    · exact if_pos hlast

/-- Settles O29: the fields no tick changes, and a tick under other values of the codec's registers. -/
theorem tickNeitherReadsNorWritesTheCodecRegisters : Obligations.TickNeitherReadsNorWritesTheCodecRegisters := by
  intro s t h
  obtain rfl : s.tickAction = t := Host.Outcome.next.inj h
  exact ⟨s.tickAction_refused, s.tickAction_reasons, s.tickAction_buf, s.tickAction_status, s.tickAction_src,
    s.tickAction_dst, s.tickAction_len, fun src dst len st => congrArg _ (s.tickAction_withCodecRegisters src dst len st)⟩

/-- START does the same whatever BUF holds (R112, R125). -/
theorem execStart_withBuf {s t : State} (m : Memory) (h : execStart s = .next t) :
    execStart { s with buf := m } = .next { t with buf := m } := by
  rcases execStart_cases s with ⟨hactive, hx⟩ | ⟨hidle, hlarge, hx⟩ | ⟨hidle, hfits, hx⟩ <;>
    obtain rfl := Host.Outcome.next.inj (hx.symm.trans h)
  · exact execStart_active (s := { s with buf := m }) hactive
  · exact execStart_tooLarge (s := { s with buf := m }) hidle hlarge
  · exact execStart_accepted (s := { s with buf := m }) hidle hfits

/-- Settles O30: the framer under another memory. -/
theorem framerReadsAtMostOneByte : Obligations.FramerReadsAtMostOneByte := by
  refine fun s t m => ⟨fun h hbyte => ?_, execStart_withBuf m⟩
  obtain rfl : s.tickAction = t := Host.Outcome.next.inj h
  have hstatus : s.tickAction.withBufStatus m s.status = { s.tickAction with buf := m } := by
    rw [State.withBufStatus, ← s.tickAction_status]
  rw [← hstatus, ← s.tickAction_withBufStatus m s.status hbyte]
  exact exec_tick _

/-! ### Ticks with nothing between them -/

/-- `n` ticks answer the `n`-th iterate of the tick. -/
theorem runTicks_eq_iterate (n : Nat) (s : State) : runTicks n s = .next (State.tickAction^[n] s) := by
  induction n generalizing s with
  | zero => rfl
  | succ n ih => rw [runTicks_succ, ih, Function.iterate_succ_apply]

/-- Settles O25: an Idle state is a fixed point of the tick. -/
theorem idleTicksChangeNothing : Obligations.IdleTicksChangeNothing := by
  intro s n hidle
  rw [runTicks_eq_iterate, Function.iterate_fixed (s.tickAction_idle hidle)]

/-! ### A whole transmission (R118 to R120) -/

/-- A tick outside Idle emits its level, and `done` after it when it ends the transmission (R115 to R117). -/
theorem State.tickAction_events {s : State} (h : s.phase ≠ .idle) :
    s.tickAction.events =
      s.events ++ .line s.tickAction.line :: if s.tickAction.phase = .idle then [.done] else [] := by
  cases hp : s.phase with
  | idle => exact absurd hp h
  | preamble =>
    rw [s.tickAction_preamble hp]
    rcases s.tickPreamble_cases with ⟨-, ht⟩ | ⟨-, -, ht⟩ | ⟨-, -, ht⟩ <;> simp [ht, hp]
  | payload =>
    rw [s.tickAction_payload hp]
    rcases s.tickPayload_cases with ⟨-, ht⟩ | ⟨-, -, ht⟩ | ⟨-, -, ht⟩ <;> simp [ht, hp]
  | stop =>
    rw [s.tickAction_stop hp]
    rcases s.tickStop_cases with ⟨-, ht⟩ | ⟨-, ht⟩ <;> simp [ht, hp]

/-- Only a Stop tick ends a transmission (R115 to R117). -/
theorem FramerInv.phase_eq_stop_of_tickAction_idle {s : State} (hs : FramerInv s) (hp : s.phase ≠ .idle)
    (h : s.tickAction.phase = .idle) : s.phase = .stop := by
  cases hphase : s.phase with
  | idle => exact absurd hphase hp
  | preamble =>
    rw [s.tickAction_preamble hphase] at h
    exact absurd h (hs.ticksTaken_tickPreamble hphase).1
  | payload =>
    rw [s.tickAction_payload hphase] at h
    exact absurd h (hs.ticksTaken_tickPayload hphase).1
  | stop => rfl

/-- An active transmission has ticks left (R49, R119). -/
theorem FramerInv.ticksTaken_lt {s : State} (hs : FramerInv s) (hp : s.phase ≠ .idle) :
    s.ticksTaken < s.transmissionTicks := by
  obtain ⟨hlt, -⟩ := List.getElem?_eq_some_iff.mp (hs.getElem?_ticksTaken hp)
  rwa [s.length_transmissionLevels] at hlt

/-- The levels sent after a tick are those before it and the level of the tick. -/
theorem FramerInv.take_ticksTaken_succ {s : State} (hs : FramerInv s) (hp : s.phase ≠ .idle) :
    s.transmissionLevels.take (s.ticksTaken + 1) = s.transmissionLevels.take s.ticksTaken ++ [s.tickAction.line] := by
  rw [List.take_add_one, hs.getElem?_ticksTaken hp, Option.toList_some]

/-- The ticks a transmission has taken determine its phase (R119). -/
theorem FramerInv.phase_eq_phaseAtTick {s : State} (hs : FramerInv s) (hp : s.phase ≠ .idle) :
    s.phase = phaseAtTick s.cfg s.frameLen.toNat (s.ticksTaken + 1) := by
  unfold phaseAtTick
  cases hphase : s.phase with
  | idle => exact absurd hphase hp
  | preamble =>
    have hpre := (hs.preamble hphase).preCnt
    rw [State.ticksTaken_preamble hphase, if_pos (by omega)]
  | payload =>
    have hbyte := (hs.payload hphase).byteIdx
    have hbit := s.bitIdx.isLt
    rw [State.ticksTaken_payload hphase, if_neg (by omega), if_pos (by omega)]
  | stop =>
    have hstop := (hs.stop hphase).stopCnt
    rw [State.ticksTaken_stop hphase, if_neg (by omega), if_neg (by omega), if_pos (by omega)]

theorem phaseAtTick_idle {c : Config} {len t : Nat} (h : c.preambleLen + 8 * len + c.stopLen < t) :
    phaseAtTick c len t = .idle := by
  rw [phaseAtTick, if_neg (by omega), if_neg (by omega), if_neg (by omega)]

/-- Where the transmission that `u` begins stands in the state `v`, `n` ticks later: it has sent its first `n` levels and
is at tick `n`, or it has sent all of them, emitted `done` once and ended in Idle (R119, R120). -/
inductive AfterTicks (u : State) (n : Nat) (v : State) : Prop where
  | sending (before : n < u.transmissionTicks) (active : v.phase ≠ .idle) (inv : FramerInv v) (taken : v.ticksTaken = n)
      (cfg : v.cfg = u.cfg) (frameLen : v.frameLen = u.frameLen) (levels : v.transmissionLevels = u.transmissionLevels)
      (events : v.events = u.events ++ (u.transmissionLevels.take n).map .line)
  | complete (after : u.transmissionTicks ≤ n) (idle : v.phase = .idle) (done : v.done = true)
      (events : v.events = u.events ++ (u.transmissionLevels.map .line ++ [.done]))

/-- An accepted START is at tick 0 of its transmission (R112). -/
theorem AfterTicks.beginFrame {s : State} (h : s.frameTooLarge = false) : AfterTicks s.beginFrame 0 s.beginFrame := by
  have hticks : 0 < s.beginFrame.transmissionTicks := by
    have hpre := s.beginFrame.cfg.preambleLen_le.1
    unfold State.transmissionTicks
    omega
  exact .sending hticks nofun (.beginFrame h) rfl rfl rfl rfl (List.append_nil _).symm

/-- A tick of the transmission is one tick more (R115 to R117). -/
theorem AfterTicks.tickAction {u v : State} {n : Nat} (h : AfterTicks u n v) : AfterTicks u (n + 1) v.tickAction := by
  cases h with
  | complete after idle done events =>
    rw [v.tickAction_idle idle]
    exact .complete (by omega) idle done events
  | sending before active inv taken cfg frameLen levels events =>
    have hsent : (u.transmissionLevels.take (n + 1)).map Event.line =
        (u.transmissionLevels.take n).map .line ++ [.line v.tickAction.line] := by
      rw [← levels, ← taken, inv.take_ticksTaken_succ active, List.map_append, List.map_singleton]
    have hevents := State.tickAction_events active
    rcases inv.ticksTaken_tickAction active with ⟨hidle, hend⟩ | ⟨hactive, htaken⟩
    · rw [taken, ← v.length_transmissionLevels, levels] at hend
      have hdone : v.tickAction.done = true := by
        rw [v.tickAction_done, if_pos ⟨inv.phase_eq_stop_of_tickAction_idle active hidle, hidle⟩]
      refine .complete (by rw [← u.length_transmissionLevels, hend]) hidle hdone ?_
      rw [hend, List.take_length] at hsent
      rw [hevents, events, if_pos hidle, hsent, List.append_assoc, List.append_assoc]
      rfl
    · have hlevels := (State.transmissionLevels_tickAction hactive).trans levels
      rw [taken] at htaken
      have hbefore : n + 1 < u.transmissionTicks := by
        simpa only [htaken, ← State.length_transmissionLevels, hlevels] using inv.tickAction.ticksTaken_lt hactive
      obtain ⟨-, -, hlen⟩ := v.tickAction_frame.resolve_left hactive
      refine .sending hbefore hactive inv.tickAction htaken (v.tickAction_cfg.trans cfg) (hlen.trans frameLen) hlevels ?_
      rw [hevents, events, if_neg hactive, hsent, List.append_assoc]

theorem AfterTicks.iterate {u : State} (h : AfterTicks u 0 u) (n : Nat) : AfterTicks u n (State.tickAction^[n] u) := by
  induction n with
  | zero => exact h
  | succ n ih =>
    rw [Function.iterate_succ_apply']
    exact ih.tickAction

/-- `n` ticks after an accepted START. -/
theorem runTicks_beginFrame {s : State} (h : s.frameTooLarge = false) (n : Nat) :
    ∃ v, runTicks n s.beginFrame = .next v ∧ AfterTicks s.beginFrame n v :=
  ⟨_, runTicks_eq_iterate n _, (AfterTicks.beginFrame h).iterate n⟩

theorem count_done_map_line (vs : List Bool) : (vs.map Event.line).count .done = 0 :=
  List.count_eq_zero.mpr (by simp)

theorem lineLevels_map_line (vs : List Bool) : lineLevels (vs.map Event.line) = vs := by
  simp [lineLevels, List.filterMap_map]

section Transmission

variable {u v : State} {n : Nat}

theorem AfterTicks.phase (h : AfterTicks u n v) : v.phase = phaseAtTick u.cfg u.frameLen.toNat (n + 1) := by
  cases h with
  | sending before active inv taken cfg frameLen =>
    rw [inv.phase_eq_phaseAtTick active, cfg, frameLen, taken]
  | complete after idle => rw [idle, phaseAtTick_idle (Nat.lt_succ_of_le after)]

/-- `done` is emitted once, by the last tick (R119). -/
theorem AfterTicks.count_done (h : AfterTicks u n v) :
    (v.emittedSince u).count .done = if u.transmissionTicks ≤ n then 1 else 0 := by
  cases h with
  | sending before _ _ _ _ _ _ events =>
    rw [State.emittedSince_of_events events, count_done_map_line, if_neg (by omega)]
  | complete after _ _ events =>
    rw [State.emittedSince_of_events events, List.count_append, count_done_map_line, if_pos after]
    rfl

/-- A transmission that has taken its ticks is complete, and has sent its levels (R120). -/
theorem AfterTicks.at_end (h : AfterTicks u u.transmissionTicks v) :
    v.phase = .idle ∧ v.done = true ∧ lineLevels (v.emittedSince u) = u.transmissionLevels := by
  cases h with
  | sending before => exact absurd before (Nat.lt_irrefl _)
  | complete _ idle done events =>
    refine ⟨idle, done, ?_⟩
    rw [State.emittedSince_of_events events, lineLevels_append, lineLevels_map_line]
    exact List.append_nil _

/-- Stop is entered with its counter at 0 (R115, R116). -/
theorem AfterTicks.stopCnt_eq_zero (h : AfterTicks u n v) (hp : v.phase = .stop)
    (hn : n = u.cfg.preambleLen + 8 * u.frameLen.toNat) : v.stopCnt = 0 := by
  cases h with
  | sending _ _ _ taken cfg frameLen =>
    rw [State.ticksTaken_stop hp, cfg, frameLen, hn] at taken
    exact BitVec.eq_of_toNat_eq (Nat.add_eq_left.mp taken)
  | complete _ idle => exact absurd (idle.symm.trans hp) nofun

end Transmission

/-- Settles O32: the phase and the count of `done` after `n` ticks. -/
theorem transmissionTakesItsTicks : Obligations.TransmissionTakesItsTicks := by
  intro s u hidle hstart hp n
  obtain ⟨hfits, rfl⟩ := eq_beginFrame_of_start hidle hstart hp
  obtain ⟨v, hrun, hv⟩ := runTicks_beginFrame hfits n
  exact ⟨v, hrun, hv.phase, hv.count_done⟩

/-- Settles O33: the levels sent when all the ticks are taken. -/
theorem transmissionSendsItsLevels : Obligations.TransmissionSendsItsLevels := by
  intro s u hidle hstart hp
  obtain ⟨hfits, rfl⟩ := eq_beginFrame_of_start hidle hstart hp
  obtain ⟨v, hrun, hv⟩ := runTicks_beginFrame hfits s.beginFrame.transmissionTicks
  obtain ⟨-, -, hlevels⟩ := hv.at_end
  exact ⟨v, hrun, hlevels, State.length_transmissionLevels _⟩

/-! ### The empty frame (R118) -/

theorem State.transmissionLevels_of_empty {s : State} (h : s.frameLen.toNat = 0) :
    s.transmissionLevels = s.cfg.preamble ++ List.replicate s.cfg.stopLen false := by
  simp [State.transmissionLevels, State.frameBytes, Memory.readBytes, h]

/-- Settles O31: the phases and the levels of a transmission whose frame holds no byte. -/
theorem emptyFrameHasNoPayload : Obligations.EmptyFrameHasNoPayload := by
  intro s hidle hlen hsrc
  have hfits : s.frameTooLarge = false := s.frameTooLarge_eq_false.mpr (by omega)
  have hempty : s.beginFrame.frameLen.toNat = 0 := hlen
  have hcfg : s.beginFrame.cfg = s.cfg := rfl
  refine ⟨_, execStart_accepted hidle hfits, rfl, fun k hk => ?_, ?_⟩
  · obtain ⟨v, hrun, hv⟩ := runTicks_beginFrame hfits k
    have hphase : v.phase = if k < s.cfg.preambleLen then .preamble else .stop := by
      rw [hv.phase, hempty, hcfg, phaseAtTick]
      split
      · next hpre => rw [if_pos (by omega)]
      · next hstop => rw [if_neg (by omega), if_pos (by omega), if_neg (by omega)]
    refine ⟨v, hrun, hphase, fun hlast => hv.stopCnt_eq_zero ?_ (by rw [hempty, hcfg, hlast]; rfl)⟩
    rw [hphase, if_neg (by omega)]
  · have hticks : s.cfg.preambleLen + s.cfg.stopLen = s.beginFrame.transmissionTicks := by
      rw [State.transmissionTicks, hempty, hcfg, Nat.mul_zero, Nat.add_zero]
    rw [hticks]
    obtain ⟨v, hrun, hv⟩ := runTicks_beginFrame hfits s.beginFrame.transmissionTicks
    obtain ⟨hend, hdone, hlevels⟩ := hv.at_end
    exact ⟨v, hrun, hend, hdone, hlevels.trans (State.transmissionLevels_of_empty hempty)⟩

end Sys2Proof.Machine
end

section
/-! PROOFS. Host access (spec/42_host_access.md): the command a write of CMD runs (R127), the operand writes (R128 to
R130), the register reads (R132 to R141) and the memory access (R143, R144). -/

namespace Sys2Proof.Machine

/-! ### A write of CMD (R127) -/

theorem decodeCmd_reserved {v : Word} (h1 : opField v ≠ 1#3) (h2 : opField v ≠ 2#3) (h3 : opField v ≠ 3#3) :
    decodeCmd v = .reject .reservedOp := by
  rw [decodeCmd, if_neg h1, if_neg h2, if_neg h3]

/-- A host word that names no operation is refused (R91). -/
theorem runArrival_host_of_reject (w : TxnWord) (r : DecodeReject) (s : State) (h : decode w = .reject r) :
    runArrival (.host w) s = .next (s.refuse .reservedEncoding) := by
  have hhost : decodeHost w = .reject r := by
    rw [decodeHost, if_neg (by rw [h]; nofun), h]
  rw [runArrival_host, hhost]

/-- Settles O5: the decoder reads OP and STD alone of a CMD word, and an OP it does not know reserves the word. -/
theorem cmdWriteIssuesTheCommandOfItsFields : Obligations.CmdWriteIssuesTheCommandOfItsFields := by
  intro d s
  split
  · next hop => exact runArrival_cmdWrite s (decodeCmd_encode hop) nofun
  · next hnotEncode =>
    split
    · next hop => exact runArrival_cmdWrite s (decodeCmd_decode hop) nofun
    · next hnotDecode =>
      split
      · next hop => exact runArrival_cmdWrite s (decodeCmd_start hop) nofun
      · next hnotStart =>
        exact runArrival_host_of_reject _ .reservedOp s
          ((decode_regWriteWord 0x0#4 d).trans (decodeCmd_reserved hnotEncode hnotDecode hnotStart))

/-- Settles O6: each word is the layout of its family with the operands in their fields (R79 to R83). -/
theorem listedWordsDecode : Obligations.ListedWordsDecode :=
  ⟨decode_regWriteWord 0x0#4 0x11#32, decode_regWriteWord 0x0#4 0x22#32, decode_regWriteWord 0x0#4 0x03#32,
    decode_regWriteWord 0x1#4 0x12340010#32, decode_regReadWord 0xA#4, decode_memWriteWord 0x10#32 0xAA#8,
    decode_memReadWord 0x10#32, decode_tickWord⟩

/-! ### The operand writes (R128 to R130) -/

/-- The word of a register write that names an operation runs it (R79). -/
theorem runArrival_regWrite (s : State) {reg : BitVec 4} {data : Word} {i : Instr}
    (h : decodeRegWrite reg data = .instr i) (hi : i ≠ .tick) :
    runArrival (.host (regWriteWord reg data)) s = exec i s :=
  runArrival_host_of_decode _ i s ((decode_regWriteWord reg data).trans h) hi

/-- Settles O37: the value each of the three keeps is `keepAw` of the datum. -/
theorem operandRegisterWritesKeepAwBits : Obligations.OperandRegisterWritesKeepAwBits := by
  intro s data
  exact ⟨keepAw s.cfg.aw data, keepAw_toNat s.cfg data, rfl, rfl, rfl,
    runArrival_regWrite s rfl nofun, runArrival_regWrite s rfl nofun, runArrival_regWrite s rfl nofun⟩

/-! ### The register reads (R132 to R141) -/

/-- A word composed of two fields is the upper one at its weight and the lower one. -/
theorem toNat_append_eq_add {n m : Nat} (x : BitVec n) (y : BitVec m) :
    (x ++ y).toNat = 2 ^ m * x.toNat + y.toNat := by
  rw [BitVec.toNat_append, ← Nat.shiftLeft_add_eq_or_of_lt y.isLt, Nat.shiftLeft_eq, Nat.mul_comm]

/-- R32: the bits above STATUS read 0. -/
theorem State.codecStatusWord_toNat (s : State) : s.codecStatusWord.toNat = s.status.code.toNat :=
  (toNat_append_eq_add 0#29 s.status.code).trans (Nat.zero_add _)

/-- R33: LINE, DONE and PHASE by their weights. -/
theorem State.framerStatusWord_toNat (s : State) :
    s.framerStatusWord.toNat = 8 * s.line.toNat + 4 * s.done.toNat + s.phase.code.toNat := by
  refine (toNat_append_eq_add _ s.phase.code).trans ?_
  rw [toNat_append_eq_add, toNat_append_eq_add, BitVec.toNat_ofBool, BitVec.toNat_ofBool, BitVec.toNat_zero]
  omega

/-- R38: the bits above BIT_IDX read 0. -/
theorem State.bitIdxWord_toNat (s : State) : s.bitIdxWord.toNat = s.bitIdx.toNat :=
  (toNat_append_eq_add 0#29 s.bitIdx).trans (Nat.zero_add _)

/-- R39: STOP_CNT in the upper half, PRE_CNT in the lower. -/
theorem State.countersWord_toNat (s : State) :
    s.countersWord.toNat = 65536 * s.stopCnt.toNat + s.preCnt.toNat := toNat_append_eq_add _ _

/-- The word of a register read that names an operation runs it (R80). -/
theorem runArrival_regRead (s : State) {reg : BitVec 4} {i : Instr} (h : decodeRegRead reg = .instr i) :
    runArrival (.host (regReadWord reg)) s = exec i s :=
  runArrival_host_of_decode _ i s ((decode_regReadWord reg).trans h) fun hi => decodeRegRead_ne_tick reg (hi ▸ h)

/-- An operation that only emits the value `v` is a read of `v`, by its register number too. -/
theorem regRead_returns (s : State) {reg : BitVec 4} {i : Instr} {v : Word} {n : Nat}
    (hreg : decodeRegRead reg = .instr i) (hexec : exec i s = .next (s.emit (.read v))) (hv : v.toNat = n) :
    runArrival (.host (regReadWord reg)) s = exec i s ∧
      ∃ u : Word, u.toNat = n ∧ exec i s = .next { s with events := s.events ++ [.read u] } :=
  ⟨runArrival_regRead s hreg, v, hv, hexec⟩

/-- Settles O38: every register read emits one word; the four composed ones hold their fields at the bits of R32, R33,
R38 and R39. -/
theorem registerReadsReturnTheirRegisters : Obligations.RegisterReadsReturnTheirRegisters := by
  intro s reads
  refine ⟨regRead_returns s rfl rfl rfl, regRead_returns s rfl rfl rfl, regRead_returns s rfl rfl rfl,
    regRead_returns s rfl rfl ?codecStatus, regRead_returns s rfl rfl ?framerStatus, regRead_returns s rfl rfl rfl,
    regRead_returns s rfl rfl s.bitIdxWord_toNat, regRead_returns s rfl rfl s.countersWord_toNat,
    regRead_returns s rfl rfl rfl, regRead_returns s rfl rfl rfl⟩
  case codecStatus =>
    rw [s.codecStatusWord_toNat]
    cases s.status <;> rfl
  case framerStatus =>
    rw [s.framerStatusWord_toNat]
    cases s.phase <;> rfl

/-! ### MEM_WRITE (R143) -/

/-- A write of one byte would write the active frame exactly when its address lies in it (R44, R63). -/
theorem State.borrowViolated_one_iff (s : State) (a : Nat) : s.borrowViolated a 1 = true ↔ s.inActiveFrame a := by
  rw [s.borrowViolated_iff, State.inActiveFrame]
  exact and_congr_right fun _ => by omega

theorem execMemWrite_outOfRange {s : State} {addr : Word} (data : Byte) (h : s.cfg.memSize ≤ addr.toNat) :
    execMemWrite addr data s = .next (s.refuse .reservedEncoding) := if_pos h

theorem execMemWrite_inActiveFrame {s : State} {addr : Word} (data : Byte) (hlt : addr.toNat < s.cfg.memSize)
    (hframe : s.inActiveFrame addr.toNat) : execMemWrite addr data s = .next (s.refuse .borrowViolation) :=
  (if_neg (Nat.not_le.mpr hlt)).trans (if_pos ((s.borrowViolated_one_iff _).mpr hframe))

theorem execMemWrite_stored {s : State} {addr : Word} (data : Byte) (hlt : addr.toNat < s.cfg.memSize)
    (hframe : ¬ s.inActiveFrame addr.toNat) :
    execMemWrite addr data s = .next (s.storeBytes addr.toNat [data]) :=
  (if_neg (Nat.not_le.mpr hlt)).trans (if_neg (mt (s.borrowViolated_one_iff _).mp hframe))

/-- Settles O40: the three outcomes of MEM_WRITE; the stored byte is read back, and it is the only one stored to. -/
theorem memWriteDoesWhatR143Says : Obligations.MemWriteDoesWhatR143Says := by
  intro s addr data hm
  refine ⟨execMemWrite_outOfRange data, execMemWrite_inActiveFrame data, fun hlt hframe => ?_,
    runArrival_host_of_decode _ _ s (decode_memWriteWord addr data) nofun⟩
  have hstored := execMemWrite_stored data hlt hframe
  refine ⟨_, hstored, rfl, ?_, bytesOutsideTheStoredOnesAreUnchanged (.memWrite addr data) s _ hm hstored⟩
  exact Memory.readByte_writeBytes_inside s.buf hm addr.toNat 0 [data] Nat.zero_lt_one

/-! ### MEM_READ (R144) -/

theorem Memory.lookup_eq_none {m : Memory} {a : Nat} (h : ∀ c ∈ m, c.1 ≠ a) : m.lookup a = none := by
  induction m with
  | nil => rfl
  | cons c m ih =>
    obtain ⟨hc, hm⟩ := List.forall_mem_cons.mp h
    rw [Memory.lookup_cons, if_neg hc, ih hm]

/-- A byte that nothing has written since reset reads as the run's initial content (R47, R64). -/
theorem Memory.readByte_of_unwritten {m : Memory} {a : Nat} (h : ∀ c ∈ m, c.1 ≠ a) :
    m.readByte a = Config.initialBuf a := by
  rw [Memory.readByte, Memory.lookup_eq_none h, Option.getD_none]

theorem execMemRead_outOfRange {s : State} {addr : Word} (h : s.cfg.memSize ≤ addr.toNat) :
    execMemRead addr s = .next (s.refuse .reservedEncoding) := if_pos h

theorem execMemRead_inRange {s : State} {addr : Word} (h : addr.toNat < s.cfg.memSize) :
    execMemRead addr s = .next (s.emit (.read ((s.readByte addr.toNat).setWidth 32))) := if_neg (Nat.not_le.mpr h)

/-- Settles O41: the two outcomes of MEM_READ; the value read is the byte of BUF, the free draw where none is listed. -/
theorem memReadDoesWhatR144Says : Obligations.MemReadDoesWhatR144Says := by
  intro s addr
  have hvalue : ((s.readByte addr.toNat).setWidth 32).toNat = (s.readByte addr.toNat).toNat :=
    BitVec.toNat_setWidth_of_le (by decide)
  refine ⟨execMemRead_outOfRange, fun hlt => ⟨_, hvalue, execMemRead_inRange hlt, fun hunwritten => ?_⟩,
    runArrival_host_of_decode _ _ s (decode_memReadWord addr) nofun⟩
  rw [hvalue, State.readByte, Memory.readByte_of_unwritten hunwritten]

end Sys2Proof.Machine
end

section
/-! PROOFS. Reset (spec/70_reset_and_hazards.md): the block after a reset edge (R163 to R165), the bytes a cut codec
command leaves open (R166), and which bytes an accepted command records as those (R108, R109). -/

namespace Sys2Proof.Machine

/-! ### The block after a reset edge (R163) -/

theorem Block.edge_of_reset {b : Block} {e : Edge} (hrst : e.rst = true) : b.edge e = .next b.resetEdge := if_pos hrst

/-- A reset edge leaves the block of a new run, whether or not it cuts a codec command; only `BUF` is the run's own. -/
theorem Block.resetEdge_newRun (b : Block) :
    ∃ m k, b.resetEdge = { Block.ofCore (State.initial b.core.cfg m) with cuts := k } ∧
      (b.busy = 0 → m = b.core.buf) := by
  by_cases hbusy : b.busy = 0
  · exact ⟨b.core.buf, b.cuts, b.resetEdge_idle hbusy, fun _ => rfl⟩
  · exact ⟨_, _, b.resetEdge_cut hbusy, fun h => absurd h hbusy⟩

/-- Settles O44: the block of a new run holds the reset values, and nothing keeps its `host_ready` at 0. -/
theorem resetEdgeSetsTheResetValues : Obligations.ResetEdgeSetsTheResetValues := by
  intro b e hrst
  obtain ⟨m, k, hr, hbuf⟩ := b.resetEdge_newRun
  refine ⟨_, (Block.edge_of_reset hrst).trans (congrArg _ hr), rfl, rfl, rfl, rfl, rfl, rfl, rfl, rfl, rfl, rfl, rfl,
    rfl, rfl, rfl, rfl, rfl, rfl, hbuf, ?_, fun e' hrst' => (Block.hostReady_iff hrst').mpr rfl⟩
  simp [Block.hostReady, hrst]

/-! ### The bytes a cut command leaves open (R166) -/

/-- The memory between `before` and `after` in which exactly the addresses in `written` are already as after. -/
def partlyWritten (before after : Memory) (written : Nat → Bool) (a : Nat) : Byte :=
  if written a then after.readByte a else before.readByte a

/-- Where nothing is stored, it does not matter what is already written. -/
theorem partlyWritten_outside {before : Memory} (hm : Memory.wf before = true) {d : Nat} {out : List Byte}
    (written : Nat → Bool) {a : Nat} (ha : ¬ (d ≤ a ∧ a < d + out.length)) :
    partlyWritten before (before.writeBytes d out) written a = (before.writeBytes d out).readByte a := by
  have hkept : (before.writeBytes d out).readByte a = before.readByte a :=
    Memory.readByte_writeBytes_outside before hm d a out (by omega)
  rw [partlyWritten, hkept, ite_self]

/-- Each partly written destination is among the memories a cut can leave (R166, "any subset of its destination bytes
written"). -/
theorem Memory.readByte_cut_partlyWritten {before : Memory} (hm : Memory.wf before = true) (d : Nat) (out : List Byte)
    (written : Nat → Bool) (a : Nat) :
    (Memory.cut (partlyWritten before (before.writeBytes d out) written) d out.length
      (before.writeBytes d out)).readByte a = partlyWritten before (before.writeBytes d out) written a := by
  rw [Memory.readByte_cut _ _ _ _ (Memory.wf_writeBytes before hm d out)]
  split
  · rfl
  · next hout => exact (partlyWritten_outside hm written hout).symm

/-- Settles O45: the cut memory reads as the free value inside the destination and as before outside it, and the free
value can be each partly written destination. -/
theorem cutCommandLeavesItsDestinationBytesOpen : Obligations.CutCommandLeavesItsDestinationBytesOpen := by
  refine ⟨fun b r e hm hbusy hrst h => ?_, fun before d out written hm =>
    ⟨_, Memory.readByte_cut_partlyWritten hm d out written⟩⟩
  rw [Block.edge_of_reset hrst, b.resetEdge_cut (Nat.ne_of_gt hbusy)] at h
  cases h
  refine ⟨rfl, Memory.wf_cut _ _ _ _ hm, rfl, fun a => ?_⟩
  have hread := Memory.readByte_cut (Config.cutByte b.cuts) b.writing.base b.writing.size b.core.buf hm a
  exact ⟨fun hin => hread.trans (if_pos hin), fun hout => hread.trans (if_neg hout)⟩

/-! ### The destination an accepted command records (R108, R109) -/

theorem codecDestination_encode {w : TxnWord} {std : BitVec 2} (h : decodeHost w = .instr (.cmdEncode std))
    (s : State) : codecDestination w s = ⟨s.dstAddr, 2 * s.lenBytes⟩ := by
  rw [codecDestination, h]

theorem codecDestination_decode {w : TxnWord} {std : BitVec 2} (h : decodeHost w = .instr (.cmdDecode std))
    (s : State) : codecDestination w s = ⟨s.dstAddr, s.lenBytes / 2⟩ := by
  rw [codecDestination, h]

/-- A word of the host is an ENCODE, a DECODE, or no codec command, and then it has no destination. -/
theorem codecWord_cases (w : TxnWord) :
    (∃ std, decodeHost w = .instr (.cmdEncode std)) ∨ (∃ std, decodeHost w = .instr (.cmdDecode std)) ∨
    (isCodecWord w = false ∧ ∀ s, codecDestination w s = ⟨0, 0⟩) := by
  unfold isCodecWord codecDestination
  split
  · next std h => exact .inl ⟨std, h⟩
  · next std h => exact .inr (.inl ⟨std, h⟩)
  · exact .inr (.inr ⟨rfl, fun _ => rfl⟩)

/-- A codec command that is not refused has its destination in BUF (R110). -/
theorem State.codecCommand_destination_within {s : State} {outLen : Nat} {result : List Byte → Status × List Byte}
    (h : (s.codecCommand outLen result).reasons = s.reasons) : s.dstAddr + outLen ≤ s.cfg.memSize := by
  by_contra hout
  rw [s.codecCommand_outOfRange outLen result fun hrange => hout hrange.2] at h
  simp at h

theorem codecDestination_within {w : TxnWord} {s t : State} (h : runArrival (.host w) s = .next t)
    (hreasons : t.reasons = s.reasons) :
    (codecDestination w s).base + (codecDestination w s).size ≤ s.cfg.memSize := by
  rw [runArrival_host] at h
  rcases codecWord_cases w with ⟨std, hd⟩ | ⟨std, hd⟩ | ⟨-, hnone⟩
  · rw [hd] at h
    cases h
    rw [codecDestination_encode hd]
    exact State.codecCommand_destination_within hreasons
  · rw [hd] at h
    cases h
    rw [codecDestination_decode hd]
    exact State.codecCommand_destination_within hreasons
  · simp [hnone]

/-- The bytes a reset finds open lie in BUF. -/
theorem openBytes_within {w : TxnWord} {s t : State} (h : runArrival (.host w) s = .next t) :
    (openBytes w s t).base + (openBytes w s t).size ≤ s.cfg.memSize := by
  rcases openBytes_cases w s t with ⟨hreasons, ho⟩ | ⟨-, ho⟩ <;> rw [ho]
  · exact codecDestination_within h hreasons
  · exact Nat.zero_le _

/-- A word that is no codec command leaves a reset no open byte, and neither does a refused one. -/
theorem openBytes_eq_none {w : TxnWord} {s t : State} (h : isCodecWord w = false ∨ t.reasons ≠ s.reasons) :
    openBytes w s t = ⟨0, 0⟩ := by
  rcases openBytes_cases w s t with ⟨hreasons, ho⟩ | ⟨-, ho⟩
  · have hword : isCodecWord w = false := h.resolve_right (not_not_intro hreasons)
    rcases codecWord_cases w with ⟨std, hd⟩ | ⟨std, hd⟩ | ⟨-, hnone⟩
    · simp [isCodecWord, hd] at hword
    · simp [isCodecWord, hd] at hword
    · rw [ho, hnone]
  · exact ho

theorem runArrival_cfg {a : Arrival} {s t : State} (h : runArrival a s = .next t) : t.cfg = s.cfg := by
  obtain ⟨u, hu, heffect⟩ := runArrival_answers a s
  obtain rfl : u = t := Host.Outcome.next.inj (hu.symm.trans h)
  exact heffect.cfg_eq

/-- The state between the two parts of an edge is fixed by its tick input (R73, R76). -/
theorem Block.eq_afterTick {b : Block} {e : Edge} {c : State} (htick : e.tickI = true → exec .tick b.core = .next c)
    (hquiet : e.tickI = false → c = b.core) : c = b.afterTick e := by
  cases h : e.tickI with
  | false => rw [hquiet h, Block.afterTick_of_no_tick h]
  | true =>
    rw [Block.afterTick_of_tick h]
    exact Host.Outcome.next.inj ((htick h).symm.trans (exec_tick b.core))

/-- Settles O54: an accepted edge records the open bytes of its word, the destination the word names unless it was
refused; an edge that waits leaves the record alone. -/
theorem acceptedCommandRecordsItsDestination : Obligations.AcceptedCommandRecordsItsDestination := by
  intro b r e c hrst h htick hquiet
  obtain rfl := Block.eq_afterTick htick hquiet
  have hacc_iff : b.accepts e = true ↔ e.hostValid = true ∧ b.busy = 0 := by
    rw [Block.accepts_iff, Block.hostReady_iff hrst]
  rw [← hacc_iff, ← and_imp, ← hacc_iff]
  rcases Block.edge_cases hrst h with ⟨hacc, d, i, hd, -, -, rfl⟩ | ⟨hacc, rfl⟩
  · refine ⟨fun hn => absurd hacc hn, fun _ => ⟨fun std hdec hreasons => ?_, fun std hdec hreasons => ?_,
      openBytes_eq_none, ?_⟩⟩
    · exact (if_pos hreasons).trans (codecDestination_encode hdec _)
    · exact (if_pos hreasons).trans (codecDestination_decode hdec _)
    · exact (openBytes_within hd).trans_eq (congrArg Config.memSize (runArrival_cfg hd).symm)
  · exact ⟨fun _ => rfl, fun hvalid => absurd hvalid hacc⟩

end Sys2Proof.Machine
end

section
/-! PROOFS. The decoder and the encoder (spec/30_encoding.md R77 to R92): each is the inverse of the other up to the
ignored bits of a CMD word, and the decoder selects what the opcode table selects. -/

namespace Sys2Proof

/-! ### The word of an operation is decoded to it -/

theorem decodeRegWrite_cmdWord (std : BitVec 2) (op : BitVec 3) :
    decodeRegWrite 0x0#4 (cmdWord std op) =
      if op = 1#3 then .instr (.cmdEncode std)
      else if op = 2#3 then .instr (.cmdDecode std)
      else if op = 3#3 then .instr .cmdStart
      else .reject .reservedOp := by
  rw [decodeRegWrite, if_pos rfl, decodeCmd, opField_cmdWord, stdField_cmdWord]

/-- Settles O1: the word of an operation is one of the five layouts, which the decoder reads back field by field. -/
theorem decodeOfEncodeIsTheOperation : Obligations.DecodeOfEncodeIsTheOperation := by
  intro i
  cases i with
  | cmdEncode std => exact (decode_regWriteWord _ _).trans (decodeRegWrite_cmdWord std 1#3)
  | cmdDecode std => exact (decode_regWriteWord _ _).trans (decodeRegWrite_cmdWord std 2#3)
  | cmdStart => exact (decode_regWriteWord _ _).trans (decodeRegWrite_cmdWord 0#2 3#3)
  | wrSrc data => exact decode_regWriteWord 0x1#4 data
  | wrDst data => exact decode_regWriteWord 0x2#4 data
  | wrLen data => exact decode_regWriteWord 0x3#4 data
  | rdSrc => exact decode_regReadWord 0x1#4
  | rdDst => exact decode_regReadWord 0x2#4
  | rdLen => exact decode_regReadWord 0x3#4
  | rdCodecStatus => exact decode_regReadWord 0x4#4
  | rdFramerStatus => exact decode_regReadWord 0x5#4
  | rdByteIdx => exact decode_regReadWord 0x6#4
  | rdBitIdx => exact decode_regReadWord 0x7#4
  | rdCounters => exact decode_regReadWord 0x8#4
  | rdFrameBase => exact decode_regReadWord 0x9#4
  | rdFrameLen => exact decode_regReadWord 0xA#4
  | memWrite addr data => exact decode_memWriteWord addr data
  | memRead addr => exact decode_memReadWord addr
  | tick => exact decode_tickWord

/-! ### The meaningful bits of a word -/

/-- A mask that has every bit above DATA cuts a REG_WRITE word in its DATA only (R79). -/
theorem regWriteWord_and (r : BitVec 4) (d m : Word) :
    regWriteWord r d &&& (BitVec.allOnes 32 ++ m) = regWriteWord r (d &&& m) :=
  BitVec.and_append.trans (congrArg (· ++ (d &&& m)) BitVec.and_allOnes)

/-- The bits 0x37 of a CMD word are its STD and OP (R84). -/
theorem cmdWord_stdField_opField (d : Word) : cmdWord (stdField d) (opField d) = d &&& 0x37#32 := by
  apply BitVec.eq_of_getLsbD_eq
  intro i hi
  simp only [cmdWord, stdField, opField, BitVec.getLsbD_append, BitVec.getLsbD_extractLsb', BitVec.getLsbD_and]
  interval_cases i <;> simp

/-- The bits 0x7 of a CMD word are its OP (R84). -/
theorem cmdWord_zero_opField (d : Word) : cmdWord 0#2 (opField d) = d &&& 0x7#32 := by
  have hclear : ∀ (std : BitVec 2) (op : BitVec 3), cmdWord 0#2 op = cmdWord std op &&& 0x7#32 := by decide
  rw [hclear (stdField d), cmdWord_stdField_opField, BitVec.and_assoc]
  rfl

/-- A REG_READ word has no ignored bit and is the word of the read it stands for (R80). -/
theorem encode_of_decodeRegRead {r : BitVec 4} {i : Instr} (h : decodeRegRead r = .instr i) :
    encode i = regReadWord r ∧ meaningfulBits i = BitVec.allOnes 64 := by
  have hall : ∀ r : BitVec 4, (match decodeRegRead r with
      | .instr i => decide (encode i = regReadWord r ∧ meaningfulBits i = BitVec.allOnes 64)
      | .reject _ => true) = true := by decide
  have hr := hall r
  rw [h] at hr
  exact of_decide_eq_true hr

/-- The word of a register write is the written one, less the ignored bits of a CMD word (R79, R84). -/
theorem encode_of_decodeRegWrite {r : BitVec 4} {d : Word} {i : Instr} (h : decodeRegWrite r d = .instr i) :
    encode i = regWriteWord r d &&& meaningfulBits i := by
  rcases decodeRegWrite_cases r d i h with
    ⟨rfl, ⟨hop, rfl⟩ | ⟨hop, rfl⟩ | ⟨hop, rfl⟩⟩ | ⟨rfl, rfl⟩ | ⟨rfl, rfl⟩ | ⟨rfl, rfl⟩
  · exact .trans (by rw [← cmdWord_stdField_opField, hop]; rfl) (regWriteWord_and 0x0#4 d 0x37#32).symm
  · exact .trans (by rw [← cmdWord_stdField_opField, hop]; rfl) (regWriteWord_and 0x0#4 d 0x37#32).symm
  · exact .trans (by rw [← cmdWord_zero_opField, hop]; rfl) (regWriteWord_and 0x0#4 d 0x7#32).symm
  · exact BitVec.and_allOnes.symm
  · exact BitVec.and_allOnes.symm
  · exact BitVec.and_allOnes.symm

/-- Settles O2: of the five layouts only a REG_WRITE of CMD has bits that its operation does not keep. -/
theorem encodeOfDecodeIsTheMeaningfulBits : Obligations.EncodeOfDecodeIsTheMeaningfulBits := by
  intro w i h
  rcases decode_cases w i h with ⟨r, d, rfl, hr⟩ | ⟨r, rfl, hr⟩ | ⟨a, x, rfl, rfl⟩ | ⟨a, rfl, rfl⟩ | ⟨rfl, rfl⟩
  · exact encode_of_decodeRegWrite hr
  · obtain ⟨hword, hbits⟩ := encode_of_decodeRegRead hr
    rw [hword, hbits, BitVec.and_allOnes]
  · exact BitVec.and_allOnes.symm
  · exact BitVec.and_allOnes.symm
  · exact BitVec.and_allOnes.symm

/-! ### The row of an operation in the opcode table -/

theorem Instr.ctorIdx_lt (i : Instr) : i.ctorIdx < opcodeTable.length := by
  cases i <;> simp [opcodeTable, Instr.ctorIdx]

/-- The row of an operation: the table lists the operations in the order of `Instr`. -/
def Instr.row (i : Instr) : OpcodeRow := opcodeTable[i.ctorIdx]'i.ctorIdx_lt

theorem Instr.row_mem (i : Instr) : i.row ∈ opcodeTable := List.getElem_mem i.ctorIdx_lt

theorem Instr.row_mnemonic (i : Instr) : i.row.mnemonic = i.mnemonic := by
  cases i <;> rfl

theorem OpcodeRow.selects_iff (row : OpcodeRow) (w : TxnWord) : row.selects w = true ↔ w &&& row.mask = row.pattern :=
  beq_iff_eq

/-- The mask of a row has meaningful bits of its operation only. -/
theorem meaningfulBits_and_row_mask (i : Instr) : meaningfulBits i &&& i.row.mask = i.row.mask := by
  cases i with
  | cmdEncode std => revert std; decide
  | cmdDecode std => revert std; decide
  | cmdStart => rfl
  | _ => exact BitVec.allOnes_and

/-- The row of an operation selects its encoding. -/
theorem encode_and_row_mask (i : Instr) : encode i &&& i.row.mask = i.row.pattern := by
  cases i with
  | cmdEncode std => revert std; decide
  | cmdDecode std => revert std; decide
  | wrSrc data => exact (regWriteWord_and 0x1#4 data 0#32).trans (congrArg (regWriteWord 0x1#4) BitVec.and_zero)
  | wrDst data => exact (regWriteWord_and 0x2#4 data 0#32).trans (congrArg (regWriteWord 0x2#4) BitVec.and_zero)
  | wrLen data => exact (regWriteWord_and 0x3#4 data 0#32).trans (congrArg (regWriteWord 0x3#4) BitVec.and_zero)
  | memWrite addr data =>
    have h : memWriteWord addr data &&& (BitVec.allOnes 24 ++ 0#32 ++ 0#8) = memWriteWord 0#32 0#8 := by
      rw [memWriteWord, BitVec.and_append, BitVec.and_append, BitVec.and_allOnes, BitVec.and_zero, BitVec.and_zero]
      rfl
    exact h
  | memRead addr =>
    have h : memReadWord addr &&& (BitVec.allOnes 24 ++ 0#32 ++ BitVec.allOnes 8) = memReadWord 0#32 := by
      rw [memReadWord, BitVec.and_append, BitVec.and_append, BitVec.and_allOnes, BitVec.and_zero, BitVec.and_allOnes]
      rfl
    exact h
  | _ => rfl

/-- The row of an operation selects every word that decodes to it: its mask looks at none but the meaningful bits, and
there the word is the encoding. -/
theorem row_selects_of_decode {w : TxnWord} {i : Instr} (h : decode w = .instr i) : i.row.selects w = true := by
  rw [OpcodeRow.selects_iff, ← meaningfulBits_and_row_mask, ← BitVec.and_assoc,
    ← encodeOfDecodeIsTheMeaningfulBits w i h, encode_and_row_mask]

/-! ### A word that a row selects -/

/-- A field that lies within the mask is that of the pattern. -/
theorem extractLsb'_of_and_eq {n start len : Nat} {w m p : BitVec n} (h : w &&& m = p)
    (hm : m.extractLsb' start len = BitVec.allOnes len) : w.extractLsb' start len = p.extractLsb' start len := by
  rw [← h, BitVec.extractLsb'_and, hm, BitVec.and_allOnes]

/-- A row with every bit above DATA in its mask selects register writes only, to the one register of its pattern. -/
theorem decode_of_regWrite_row (r : BitVec 4) {w m p : TxnWord} (h : w &&& m = p)
    (hm : m.extractLsb' 32 32 = BitVec.allOnes 32) (hp : p.extractLsb' 32 32 = 0x0#4 ++ 0#24 ++ r) :
    decode w = decodeRegWrite r (dataField w) := by
  have hw : w = regWriteWord r (dataField w) := calc
    w = w.extractLsb' 32 32 ++ dataField w := (BitVec.extractLsb'_append_extractLsb' (w := 32) (len := 32)).symm
    _ = regWriteWord r (dataField w) := congrArg (· ++ dataField w) ((extractLsb'_of_and_eq h hm).trans hp)
  exact (congrArg decode hw).trans (decode_regWriteWord r (dataField w))

/-- A row of CMD fixes the OP of its words (R84). -/
theorem decode_of_cmd_row (op : BitVec 3) {w p : TxnWord} (h : w &&& 0xFFFFFFFF00000007#64 = p)
    (hreg : p.extractLsb' 32 32 = 0#32) (hop : p.extractLsb' 0 3 = op) :
    decode w = decodeCmd (dataField w) ∧ opField (dataField w) = op := by
  have hfield : opField (dataField w) = w.extractLsb' 0 3 := BitVec.extractLsb'_extractLsb'_of_le (by decide)
  exact ⟨decode_of_regWrite_row 0x0#4 h rfl hreg, hfield.trans ((extractLsb'_of_and_eq h rfl).trans hop)⟩

/-- A row with a full mask selects its pattern only. -/
theorem decode_of_full_row {w p : TxnWord} {i : Instr} (hp : decode p = .instr i) (h : w &&& 0xFFFFFFFFFFFFFFFF#64 = p) :
    decode w = .instr i :=
  (congrArg decode (BitVec.and_allOnes.symm.trans h)).trans hp

/-- Every word that a row of the table selects decodes to an operation of that row. -/
theorem decode_of_selects (w : TxnWord) :
    ∀ row ∈ opcodeTable, row.selects w = true → ∃ i, decode w = .instr i ∧ i.mnemonic = row.mnemonic := by
  simp only [opcodeTable, List.forall_mem_cons, OpcodeRow.selects_iff]
  refine ⟨fun h => ?encode, fun h => ?decode, fun h => ?start,
    fun h => ⟨_, decode_of_regWrite_row 0x1#4 h rfl rfl, rfl⟩,
    fun h => ⟨_, decode_of_regWrite_row 0x2#4 h rfl rfl, rfl⟩,
    fun h => ⟨_, decode_of_regWrite_row 0x3#4 h rfl rfl, rfl⟩,
    fun h => ⟨_, decode_of_full_row (decode_regReadWord 0x1#4) h, rfl⟩,
    fun h => ⟨_, decode_of_full_row (decode_regReadWord 0x2#4) h, rfl⟩,
    fun h => ⟨_, decode_of_full_row (decode_regReadWord 0x3#4) h, rfl⟩,
    fun h => ⟨_, decode_of_full_row (decode_regReadWord 0x4#4) h, rfl⟩,
    fun h => ⟨_, decode_of_full_row (decode_regReadWord 0x5#4) h, rfl⟩,
    fun h => ⟨_, decode_of_full_row (decode_regReadWord 0x6#4) h, rfl⟩,
    fun h => ⟨_, decode_of_full_row (decode_regReadWord 0x7#4) h, rfl⟩,
    fun h => ⟨_, decode_of_full_row (decode_regReadWord 0x8#4) h, rfl⟩,
    fun h => ⟨_, decode_of_full_row (decode_regReadWord 0x9#4) h, rfl⟩,
    fun h => ⟨_, decode_of_full_row (decode_regReadWord 0xA#4) h, rfl⟩,
    fun h => ?memWrite, fun h => ?memRead, fun h => ⟨_, decode_of_full_row decode_tickWord h, rfl⟩,
    List.forall_mem_nil _⟩
  case encode =>
    obtain ⟨hd, hop⟩ := decode_of_cmd_row 1#3 h rfl rfl
    exact ⟨_, hd.trans (Machine.decodeCmd_encode hop), rfl⟩
  case decode =>
    obtain ⟨hd, hop⟩ := decode_of_cmd_row 2#3 h rfl rfl
    exact ⟨_, hd.trans (Machine.decodeCmd_decode hop), rfl⟩
  case start =>
    obtain ⟨hd, hop⟩ := decode_of_cmd_row 3#3 h rfl rfl
    exact ⟨_, hd.trans (Machine.decodeCmd_start hop), rfl⟩
  case memWrite =>
    have hw := memWriteWord_of_fields w (extractLsb'_of_and_eq h rfl) (extractLsb'_of_and_eq h rfl)
    exact ⟨_, hw ▸ decode_memWriteWord _ _, rfl⟩
  case memRead =>
    have hw := memReadWord_of_fields w (extractLsb'_of_and_eq h rfl) (extractLsb'_of_and_eq h rfl)
      (extractLsb'_of_and_eq h rfl)
    exact ⟨_, hw ▸ decode_memReadWord _, rfl⟩

theorem opcodeTable_mnemonic_injective :
    ∀ row ∈ opcodeTable, ∀ row' ∈ opcodeTable, row.mnemonic = row'.mnemonic → row = row' := by
  decide

/-- Settles O3: each side gives the other's operation; two rows that select one word have the mnemonic of the operation
it decodes to. -/
theorem decoderAgreesWithTheOpcodeTable : Obligations.DecoderAgreesWithTheOpcodeTable := by
  refine ⟨fun w i h => ⟨i.row, i.row_mem, i.row_mnemonic, row_selects_of_decode h⟩, decode_of_selects,
    fun w row hrow row' hrow' h h' => opcodeTable_mnemonic_injective row hrow row' hrow' ?_⟩
  obtain ⟨i, hi, hm⟩ := decode_of_selects w row hrow h
  obtain ⟨i', hi', hm'⟩ := decode_of_selects w row' hrow' h'
  rw [← hm, ← hm', Decoded.instr.inj (hi.symm.trans hi')]

end Sys2Proof
end
